-- ==== Sys2Proof/Word.lean ====
section
/-! DEFINITION. The two word formats of the block (spec/30_encoding.md R40): the 16-bit linear sample LIN16 and
the 8-bit A-law code ALAW8.  A value on a port is one bit pattern; "signed" and "unsigned" are readings of it
(spec/00_scope.md R7), here `BitVec.toInt` and `BitVec.toNat`, and bit 0 is the least significant (R6). -/

namespace Sys2Proof

/-- Format LIN16 (R41): the operand of ALAW_ENC and the result of ALAW_DEC, two's complement. -/
abbrev Sample := BitVec 16

/-- Format ALAW8 (R42, R43): the result of ALAW_ENC and the operand of ALAW_DEC. -/
abbrev Code := BitVec 8

end Sys2Proof
end

