-- ==== Sys2Proof/Config.lean ====
section
/-! DEFINITION. What the spec leaves to the system around the block.  The only open parameters are the instance
counts N_ENC and N_DEC (spec/00_scope.md R5, spec/92_eei_decisions.md D12): the model takes them as arguments
(`Machine.State.resetWith`), and a state carries them as the lengths of its two lists of input ports.  The values
below only fix the one state `Machine.State.reset` the host interface asks for.  There is NO free value in this
model: the spec leaves no result open (R13 item 6, spec/93_implementation_defined.md section 1). -/

namespace Sys2Proof.Config

/-- N_ENC of `State.reset`.  DESIGN CHOICE (log entry 1): the spec leaves the count open; unsafe. -/
def encodersAtReset : Nat := 1

/-- N_DEC of `State.reset`.  DESIGN CHOICE (log entry 1): the spec leaves the count open; unsafe. -/
def decodersAtReset : Nat := 1

/-- The pattern the host holds on every `pcm_i` at reset.  DESIGN CHOICE (log entry 2): the spec lets the inputs
carry any value around a reset (R26, R95); unsafe. -/
def sampleAtReset : Sample := 0x0000

/-- The pattern the host holds on every `alaw_i` at reset.  DESIGN CHOICE (log entry 2); unsafe. -/
def codeAtReset : Code := 0x00

end Sys2Proof.Config
end

