-- ==== Sys2Proof/Syntax.lean ====
section
/-! DEFINITION. The operations of the block, one constructor per row of spec/opcode_table.json.  The abstract syntax
is the line of spec/30_encoding.md R51: the instance label (`e<k>` or `d<k>`, which names the unit that receives
the operand, R48) and the one operand.  The pseudo-operations ROUNDTRIP and RECODE (R52) are no rows of the table;
they stand in Machine/Program.lean with their expansions. -/

namespace Sys2Proof

/-- An operation presented to a named instance (R48, R51, R102). -/
inductive Instr where
  /-- `e<k>: ENC x`: the sample `x` presented on `pcm_i` of the `k`-th `alaw_encoder` (row ALAW_ENC, R54). -/
  | alawEnc (k : Nat) (x : Sample)
  /-- `d<k>: DEC y`: the code `y`, in wire form, presented on `alaw_i` of the `k`-th `alaw_decoder` (row
  ALAW_DEC, R63). -/
  | alawDec (k : Nat) (y : Code)
deriving DecidableEq, Repr

end Sys2Proof
end

