-- ==== Sys2Proof/WellFormed.lean ====
section
/-! DEFINITION. Which operations make sense in a system of `nEnc` encoders and `nDec` decoders.  The operand needs no
check: every 16-bit and every 8-bit pattern is legal (spec/30_encoding.md R50).  The instance named must be one of
the system's (spec/60_exceptions.md R92: the counts are any natural numbers, zero included). -/

namespace Sys2Proof

/-- The operation names an instance that a system with these counts has. -/
def Instr.wellFormed (nEnc nDec : Nat) : Instr → Bool
  | .alawEnc k _ => k < nEnc
  | .alawDec k _ => k < nDec

end Sys2Proof
end

