-- ==== Sys2Proof/Decode.lean ====
section
/-! DEFINITION. From a word on an input port to the operation it is, and back (spec/30_encoding.md R48).  There are no
opcode bits: the unit that receives the word decides the operation, and all bits of the word are its operand, so
`decode` is total and never answers "invalid" (R48, R50).  Words of a width no unit has are refused by name one step
earlier, in `presentWord`. -/

namespace Sys2Proof

/-- The input port of one instance, by the labels of R51: `e<k>` (its `pcm_i`) or `d<k>` (its `alaw_i`). -/
inductive Port where
  | pcmI (k : Nat)
  | alawI (k : Nat)
deriving DecidableEq, Repr

/-- What the host puts on an input port: the instance and a word of that port's width (R48, R53).  A value that is
not a bit pattern (X, Z, changing) cannot be written down (R98, spec/93_implementation_defined.md U1). -/
inductive Presented where
  | onPcmI (k : Nat) (w : BitVec 16)
  | onAlawI (k : Nat) (w : BitVec 8)
deriving DecidableEq, Repr

/-- Why a raw bit string is no presentation; raised by `presentWord` only, never by a step. -/
inductive DecodeError where
  /-- The string does not have as many bits as the port (R32: 16 and 8 are the only widths). -/
  | widthMismatch
  /-- The number does not fit the stated count of bits. -/
  | notAWord
  /-- No unit of the block has an operand of this width. -/
  | noUnitOfWidth
deriving DecidableEq, Repr

/-- The operation a presented word is (R48): total. -/
def decode : Presented → Instr
  | .onPcmI k w => .alawEnc k w
  | .onAlawI k w => .alawDec k w

/-- The word, on its port, that an operation is (R53: one operand word per line). -/
def encode : Instr → Presented
  | .alawEnc k x => .onPcmI k x
  | .alawDec k y => .onAlawI k y

/-- The port a presented word stands on. -/
def Presented.port : Presented → Port
  | .onPcmI k _ => .pcmI k
  | .onAlawI k _ => .alawI k

/-- How many bits a port has (R20, R21). -/
def Port.width : Port → Nat
  | .pcmI _ => 16
  | .alawI _ => 8

/-- A raw string of `nbits` bits, read as the number `w`, put on a port: a presentation, or a rejection by name. -/
def presentWord (port : Port) (nbits w : Nat) : Except DecodeError Presented :=
  if nbits ≠ port.width then .error .widthMismatch
  else if 2 ^ nbits ≤ w then .error .notAWord
  else match port with
    | .pcmI k => .ok (.onPcmI k (BitVec.ofNat 16 w))
    | .alawI k => .ok (.onAlawI k (BitVec.ofNat 8 w))

/-- The unit a word of the opcode table goes to.  Both rows have mask 0, so only the row's width tells them apart;
with no label written the instance is number 0 (R51).  DEDUCED (log entry 9). -/
def portOfWidth (nbits : Nat) : Except DecodeError Port :=
  if nbits = 16 then .ok (.pcmI 0)
  else if nbits = 8 then .ok (.alawI 0)
  else .error .noUnitOfWidth

/-- A word numbered as spec/opcode_table.json numbers it, on the port of the unit of that width.  Both formats are
one word, so there is no second word and no byte order (spec/20_memory.md R30). -/
def presentTableWord (nbits w : Nat) : Except DecodeError Presented :=
  match portOfWidth nbits with
  | .ok port => presentWord port nbits w
  | .error e => .error e

/-- The operation the decoder reads from a table word. -/
def decodeTableWord (nbits w : Nat) : Option Instr :=
  match presentTableWord nbits w with
  | .ok p => some (decode p)
  | .error _ => none

end Sys2Proof
end

