-- ==== Sys2Proof/Machine/State.lean ====
section
/-! DEFINITION. The state of a system of encoder and decoder instances and of the host that drives them.  The block
itself has no state (spec/10_state.md R15 to R19): no register, no program counter, no flag, no control register, no
memory (spec/20_memory.md R28).  What a model of a system carries is what R27 and spec/70_reset_and_hazards.md R102
name: what drives each input port, the operations the host has still to present, and the record of what was
presented and answered.  No field holds an output port: `alaw_o` and `pcm_o` are functions of the inputs at every
instant (R26, R33), computed in Machine/Ports.lean. -/

namespace Sys2Proof.Machine

open Sys2Proof

/-- What drives one input port: the host, holding a pattern on it (R103), or a wire the integrator drew from the
output port of instance `src` of the other unit (spec/20_memory.md R35, spec/30_encoding.md R52, R99). -/
inductive Drive (α : Type) where
  | host (v : α)
  | wire (src : Nat)
deriving DecidableEq, Repr

/-- One observation of a run: the (instance, operand, result) triple of R102. -/
inductive Obs where
  /-- Instance `e<k>` was presented the sample `x` and answered the code `r`. -/
  | enc (k : Nat) (x : Sample) (r : Code)
  /-- Instance `d<k>` was presented the code `y` and answered the sample `r`. -/
  | dec (k : Nat) (y : Code) (r : Sample)
deriving DecidableEq, Repr

/-- What reading a port gives.  The two last are no values: the spec names none and selects none. -/
inductive PortValue (α : Type) where
  /-- The port carries this pattern. -/
  | value (v : α)
  /-- No such instance, or a chain of wires that starts at an instance that does not exist: the input is undriven
  (spec/93_implementation_defined.md U1, treatment "refuse").  Safe. -/
  | undriven
  /-- A register-free loop of wires (R99, U5, treatment "refuse"): no value is selected.  Safe. -/
  | loop
deriving DecidableEq, Repr

/-- The state.  N_ENC is `encIn.length`, N_DEC is `decIn.length` (R92). -/
structure State where
  /-- What drives `pcm_i` of each encoder instance, `e0` first (R20). -/
  encIn : List (Drive Sample)
  /-- What drives `alaw_i` of each decoder instance, `d0` first (R21). -/
  decIn : List (Drive Code)
  /-- The operand words the host has still to present, next first (R53, R102). -/
  pending : List Presented
  /-- The observation so far, oldest first (R27, R102).  No operation reads it. -/
  trace : List Obs
deriving DecidableEq, Repr

/-- Why the machine stops with a fault.  Neither unit has a fault of its own (spec/60_exceptions.md R84). -/
inductive Fault where
  /-- Raised by `present` operations of Machine/Ops.lean: the operation names an instance the system does not have.
  No hardware receives the operand, so the spec gives no result (R92).  DESIGN CHOICE (log entry 6); safe. -/
  | noSuchInstance
deriving DecidableEq, Repr

/-- Why the machine refuses.  It never does: every operand an input port can carry has its result (R85, R98). -/
inductive Refusal where
  /-- Kept for arms of `exec` with no meaning yet; no arm uses it. Safe. -/
  | notModelled (mnemonic : String)
deriving DecidableEq, Repr

/-- A system of `nEnc` encoders and `nDec` decoders with no wires, before anything is presented (R5, R26, R92, R94). -/
def State.resetWith (nEnc nDec : Nat) : State where
  encIn := List.replicate nEnc (.host Config.sampleAtReset)
  decIn := List.replicate nDec (.host Config.codeAtReset)
  pending := []
  trace := []

/-- The machine right after reset: one instance of each unit (log entries 1 and 2).  There is no piece of state whose
reset value the spec could give (R26). -/
def State.reset : State := State.resetWith Config.encodersAtReset Config.decodersAtReset

end Sys2Proof.Machine
end

