-- ==== Sys2Proof/Machine/Operands.lean ====
section
/-! DEFINITION. The constants built into the hardware (spec/00_scope.md R4, spec/30_encoding.md R47) and the bit
layouts of the operand formats (R41 to R46).  The literals are the spec's; the spec calls them unaudited
(UNVERIFIED, log entry 12). -/

namespace Sys2Proof.Machine

open Sys2Proof

/-- ALAW_MAX, the magnitude clamp. -/
def alawMax : BitVec 16 := 0x0FFF

/-- MASK0, the first mask of the segment search. -/
def mask0 : BitVec 16 := 0x0800

/-- POS0, the first position of the segment search. -/
def pos0 : Nat := 11

/-- The loop's lower guard: the search goes on only while the position is at least this. -/
def posGuard : Nat := 5

/-- POS_MIN: the minimum position, the offset of the segment field and the base of the mantissa shift. -/
def posMin : Nat := 4

/-- SIGN_BIT. -/
def signBit : Code := 0x80

/-- MANT_MASK. -/
def mantMask : Code := 0x0F

/-- The decoder's mask of the upper nibble. -/
def segMask : Code := 0xF0

/-- The decoder's mask that clears the sign bit. -/
def lowMask : Code := 0x7F

/-- INV, the alternating-bit inversion: bits 0, 2, 4 and 6 (R43; spec/90_conflicts.md C1). -/
def inv : Code := 0x55

/-- Plain form to wire form, and wire form to plain form: the same exclusive OR (R43). -/
def invert (c : Code) : Code := c ^^^ inv

/-- The three fields of the plain form (R42). -/
structure CodeFields where
  s : BitVec 1
  seg : BitVec 3
  mant : BitVec 4
deriving DecidableEq, Repr

/-- Assembly of the plain form: the concatenation of R45. -/
def assemble (f : CodeFields) : Code := f.s ++ f.seg ++ f.mant

/-- The fields of a plain form (R42). -/
def plainFields (p : Code) : CodeFields where
  s := p.extractLsb' 7 1
  seg := p.extractLsb' 4 3
  mant := p.extractLsb' 0 4

/-- The fields of a code as it stands on a port (R46). -/
def wireFields (c : Code) : CodeFields := plainFields (invert c)

/-- The code, as it stands on a port, with these fields (R43, R45). -/
def wireOf (f : CodeFields) : Code := invert (assemble f)

end Sys2Proof.Machine
end

