-- ==== Sys2Proof/Machine/Flags.lean ====
section
/-! DEFINITION. The block has no status flag (spec/10_state.md R17).  The two "sign flags" are intermediates of one
evaluation, computed here: the encoder's (spec/40_encoder.md R55) and the decoder's (spec/41_decoder.md R65). -/

namespace Sys2Proof.Machine

open Sys2Proof

/-- The sample is below zero: bit 15 is set (R41, R55).  Zero is not negative. -/
def isNegative (x : Sample) : Bool := x.msb

/-- The encoder's sign flag: 0x80 for a sample below zero, else 0 (R55). -/
def encSign (x : Sample) : Code := if isNegative x then signBit else 0x00

/-- The decoder's sign flag, read from bit 0x80 of the byte after the inversion is undone (R65). -/
def decNeg (w : Code) : Bool := w &&& signBit != 0

end Sys2Proof.Machine
end

