-- ==== Sys2Proof/Machine/Ops.lean ====
section
/-! DEFINITION. The shared operations over the state: updating a field, presenting an operand on an input port, and
taking the next word the host presents.  There is no memory access, no register access, no exception entry and no
return from one to define (spec/20_memory.md R28, R38; spec/60_exceptions.md R84, R88, R89). -/

namespace Sys2Proof.Machine

open Sys2Proof

/-- The host presents the pattern `v` on an input port: a port that is the host's to drive holds `v` from then on
(R103; log entry 10), and a port that a wire drives is the wire's again when the operation is over (log entry 7). -/
def Drive.present {α : Type} (v : α) : Drive α → Drive α
  | .host _ => .host v
  | .wire j => .wire j

/-- `x` is presented on `pcm_i` of `e<k>`. -/
def State.driveEnc (s : State) (k : Nat) (x : Sample) : State := { s with encIn := s.encIn.modify k (Drive.present x) }

/-- `y` is presented on `alaw_i` of `d<k>`. -/
def State.driveDec (s : State) (k : Nat) (y : Code) : State := { s with decIn := s.decIn.modify k (Drive.present y) }

/-- The host observes a result: one more triple at the end of the record (R102). -/
def State.record (s : State) (o : Obs) : State := { s with trace := s.trace ++ [o] }

/-- The list of words still to be presented becomes `ps`. -/
def State.setPending (s : State) (ps : List Presented) : State := { s with pending := ps }

/-- `e<k>` exists and its `pcm_i` is the host's to drive. -/
def State.hostDrivesEnc (s : State) (k : Nat) : Bool :=
  match s.encIn[k]? with
  | some (.host _) => true
  | _ => false

/-- `d<k>` exists and its `alaw_i` is the host's to drive. -/
def State.hostDrivesDec (s : State) (k : Nat) : Bool :=
  match s.decIn[k]? with
  | some (.host _) => true
  | _ => false

/-- The operation names an instance this system has. -/
def State.has (s : State) (i : Instr) : Bool := i.wellFormed s.encIn.length s.decIn.length

/-- The host presents `x` on `pcm_i` of `e<k>` and observes the answer `r` (R34, R85, R102, R103).  An absent instance
stops by name (log entry 6). -/
def presentEnc (k : Nat) (x : Sample) (r : Code) (s : State) : Host.Outcome State Fault Refusal :=
  if k < s.encIn.length then .next ((s.driveEnc k x).record (.enc k x r)) else .fault .noSuchInstance

/-- The host presents `y` on `alaw_i` of `d<k>` and observes the answer `r` (R34, R85, R102, R103). -/
def presentDec (k : Nat) (y : Code) (r : Sample) (s : State) : Host.Outcome State Fault Refusal :=
  if k < s.decIn.length then .next ((s.driveDec k y).record (.dec k y r)) else .fault .noSuchInstance

/-- The next word the host presents, with the state in which it is no longer to come (R53; log entry 3). -/
def fetch (s : State) : Option (Presented × State) :=
  match s.pending with
  | [] => none
  | p :: ps => some (p, s.setPending ps)

/-- Nothing is presented: the inputs stay as they are, so every output does too (R33; log entry 4). -/
def idle (s : State) : Host.Outcome State Fault Refusal := .next s

end Sys2Proof.Machine
end

