-- ==== Sys2Proof/Machine/Decoder.lean ====
section
/-! DEFINITION. The operation ALAW_DEC of `alaw_decoder`: the five steps of spec/41_decoder.md R63 in the order and in
the form the spec gives them, and the meaning of the row ALAW_DEC. -/

namespace Sys2Proof.Machine

open Sys2Proof

/-- Step 1: the inversion is undone (R64). -/
def decUninvert (y : Code) : Code := invert y

/-- Step 2: the sign flag, and the byte with that bit clear (R65). -/
def decSign (w : Code) : Bool × Code := (decNeg w, if decNeg w then w &&& lowMask else w)

/-- Step 3: the position, from the upper nibble after the sign bit is clear (R66). -/
def decPosition (w : Code) : Nat := ((w &&& segMask) >>> 4).toNat + posMin

/-- Step 4: the magnitude (R67 for positions 5 to 11, R68 for position 4).  `w` is the working value after steps 1
and 2 (spec/90_conflicts.md C2). -/
def decMagnitude (w : Code) (position : Nat) : BitVec 16 :=
  if position = posMin then (w.setWidth 16 <<< 1) ||| 1
  else (1 <<< position) ||| ((w &&& mantMask).setWidth 16 <<< (position - posMin)) ||| (1 <<< (position - 5))

/-- Step 5: the sign applied (R70). -/
def decApplySign (neg : Bool) (d : BitVec 16) : Sample := if neg then ~~~d + 1 else d

/-- The magnitude of step 4 for the operand `y`. -/
def alawMagnitude (y : Code) : BitVec 16 :=
  let w := (decSign (decUninvert y)).2
  decMagnitude w (decPosition w)

/-- The function of `alaw_decoder` (R63). -/
def alawDecode (y : Code) : Sample :=
  let sw := decSign (decUninvert y)
  let position := decPosition sw.2
  let d := decMagnitude sw.2 position
  decApplySign sw.1 d

/-- ALAW_DEC (R63): `y` is presented on `alaw_i` of `d<k>`, and `pcm_o` answers its sample. -/
def execAlawDec (k : Nat) (y : Code) (s : State) : Host.Outcome State Fault Refusal :=
  presentDec k y (alawDecode y) s

end Sys2Proof.Machine
end

