-- ==== Sys2Proof/Machine/Encoder.lean ====
section
/-! DEFINITION. The operation ALAW_ENC of `alaw_encoder`: the five steps of spec/40_encoder.md R54 in the order and in
the form the spec gives them, and the meaning of the row ALAW_ENC. -/

namespace Sys2Proof.Machine

open Sys2Proof

/-- Step 1: sign flag and magnitude.  The negation is `trunc_16(~x + 1)` read unsigned, so that -32768 has the
magnitude 32768 (R55, R56; spec/92_eei_decisions.md D5). -/
def encSignMag (x : Sample) : Code × BitVec 16 :=
  (encSign x, if isNegative x then ~~~x + 1 else x)

/-- Step 2: the silent clamp, an unsigned comparison (R57). -/
def encClamp (mag : BitVec 16) : BitVec 16 := if alawMax < mag then alawMax else mag

/-- The loop of step 3.  The first argument bounds the number of tests. -/
def searchLoop : Nat → BitVec 16 → BitVec 16 → Nat → Nat
  | 0, _, _, position => position
  | n + 1, mag, mask, position =>
    if mag &&& mask ≠ mask ∧ posGuard ≤ position then searchLoop n mag (mask >>> 1) (position - 1) else position

/-- Step 3: the segment search (R58).  The test is evaluated at most 8 times. -/
def encPosition (mag : BitVec 16) : Nat := searchLoop 8 mag mask0 pos0

/-- Step 4: the 4-bit mantissa (R60). -/
def encMantissa (mag : BitVec 16) (position : Nat) : Code :=
  if position = posMin then (mag >>> 1).setWidth 8 &&& mantMask
  else (mag >>> (position - posMin)).setWidth 8 &&& mantMask

/-- Step 5: the plain form, then the inversion (R61). -/
def encCompose (sign : Code) (position : Nat) (lsb : Code) : Code :=
  invert (sign ||| (BitVec.ofNat 8 (position - posMin) <<< 4) ||| lsb)

/-- `pos(x)` of spec/42_codec_laws.md: the position of a sample's clamped magnitude. -/
def alawPosition (x : Sample) : Nat := encPosition (encClamp (encSignMag x).2)

/-- The function of `alaw_encoder` (R54). -/
def alawEncode (x : Sample) : Code :=
  let sm := encSignMag x
  let mag := encClamp sm.2
  let position := encPosition mag
  let lsb := encMantissa mag position
  encCompose sm.1 position lsb

/-- ALAW_ENC (R54): `x` is presented on `pcm_i` of `e<k>`, and `alaw_o` answers its code. -/
def execAlawEnc (k : Nat) (x : Sample) (s : State) : Host.Outcome State Fault Refusal :=
  presentEnc k x (alawEncode x) s

end Sys2Proof.Machine
end

