-- ==== Sys2Proof/Machine/Dispatch.lean ====
section
/-! DEFINITION. One arm per operation of the block (spec/opcode_table.json). -/

namespace Sys2Proof.Machine

open Sys2Proof

def exec (i : Instr) (s : State) : Host.Outcome State Fault Refusal :=
  match i with
  | .alawEnc k x => Sys2Proof.Machine.execAlawEnc k x s
  | .alawDec k y => Sys2Proof.Machine.execAlawDec k y s

end Sys2Proof.Machine
end

