-- ==== Sys2Proof/Machine/Step.lean ====
section
/-! DEFINITION. One step: the host presents its next word and the unit it stands on answers.  One operation is one
atomic step (spec/70_reset_and_hazards.md R101). -/

namespace Sys2Proof.Machine

open Sys2Proof

/-- One step (R34, R102): with nothing left to present, the inputs are held. -/
def step (s : State) : Host.Outcome State Fault Refusal :=
  match fetch s with
  | none => idle s
  | some (p, s') => exec (decode p) s'

/-- The state in which the host presents this table word next (log entry 3).  A number that is no word of a unit of
this width changes nothing. -/
def State.withFetchWord (s : State) (nbits w : Nat) : State :=
  match presentTableWord nbits w with
  | .ok p => s.setPending (p :: s.pending)
  | .error _ => s

end Sys2Proof.Machine
end

