-- ==== Sys2Proof/Machine/Ports.lean ====
section
/-! DEFINITION. What the four ports carry, as functions of the state (spec/10_state.md R20, R21, R26;
spec/20_memory.md R33): at every instant `alaw_o` is the encoder's function of `pcm_i` and `pcm_o` the decoder's of
`alaw_i` (spec/70_reset_and_hazards.md R95).  An input that a wire drives carries the output it is wired to, so an
acyclic chain of wires gives the composition of the functions, and a loop of wires selects no value (R99). -/

namespace Sys2Proof.Machine

open Sys2Proof

/-- A unit's function applied to what a port carries. -/
def PortValue.map {α β : Type} (f : α → β) : PortValue α → PortValue β
  | .value v => .value (f v)
  | .undriven => .undriven
  | .loop => .loop

mutual
/-- What `pcm_i` of `e<k>` carries, following at most `n` input ports back along the wires. -/
def pcmIWithin : Nat → State → Nat → PortValue Sample
  | 0, _, _ => .loop
  | n + 1, s, k =>
    match s.encIn[k]? with
    | none => .undriven
    | some (.host x) => .value x
    | some (.wire j) => (alawIWithin n s j).map alawDecode
/-- What `alaw_i` of `d<k>` carries, following at most `n` input ports back along the wires. -/
def alawIWithin : Nat → State → Nat → PortValue Code
  | 0, _, _ => .loop
  | n + 1, s, k =>
    match s.decIn[k]? with
    | none => .undriven
    | some (.host y) => .value y
    | some (.wire j) => (pcmIWithin n s j).map alawEncode
end

/-- More input ports than a walk along the wires can visit without coming back to one. -/
def State.walkBound (s : State) : Nat := s.encIn.length + s.decIn.length + 1

/-- What `pcm_i` of `e<k>` carries. -/
def State.pcmI (s : State) (k : Nat) : PortValue Sample := pcmIWithin s.walkBound s k

/-- What `alaw_i` of `d<k>` carries. -/
def State.alawI (s : State) (k : Nat) : PortValue Code := alawIWithin s.walkBound s k

/-- What `alaw_o` of `e<k>` carries (R95). -/
def State.alawO (s : State) (k : Nat) : PortValue Code := (s.pcmI k).map alawEncode

/-- What `pcm_o` of `d<k>` carries (R95). -/
def State.pcmO (s : State) (k : Nat) : PortValue Sample := (s.alawI k).map alawDecode

mutual
/-- The host-driven input port at which the chain of wires behind `pcm_i` of `e<k>` starts, following at most `n`. -/
def pcmISourceWithin : Nat → State → Nat → PortValue Port
  | 0, _, _ => .loop
  | n + 1, s, k =>
    match s.encIn[k]? with
    | none => .undriven
    | some (.host _) => .value (.pcmI k)
    | some (.wire j) => alawISourceWithin n s j
/-- The host-driven input port at which the chain of wires behind `alaw_i` of `d<k>` starts, following at most `n`. -/
def alawISourceWithin : Nat → State → Nat → PortValue Port
  | 0, _, _ => .loop
  | n + 1, s, k =>
    match s.decIn[k]? with
    | none => .undriven
    | some (.host _) => .value (.alawI k)
    | some (.wire j) => pcmISourceWithin n s j
end

/-- The host-driven port whose pattern reaches an input port, along wires or directly (R35). -/
def State.source (s : State) : Port → PortValue Port
  | .pcmI k => pcmISourceWithin s.walkBound s k
  | .alawI k => alawISourceWithin s.walkBound s k

/-- The integrator draws a wire from `alaw_o` of `e<src>` to `alaw_i` of `d<k>` (R52, R99). -/
def State.wireDec (s : State) (k src : Nat) : State := { s with decIn := s.decIn.set k (.wire src) }

/-- The integrator draws a wire from `pcm_o` of `d<src>` to `pcm_i` of `e<k>` (R52, R99). -/
def State.wireEnc (s : State) (k src : Nat) : State := { s with encIn := s.encIn.set k (.wire src) }

end Sys2Proof.Machine
end

