-- ==== Sys2Proof/Machine/Program.lean ====
section
/-! DEFINITION. The notation of spec/30_encoding.md section 4: operand spellings and lines (R51), the pseudo-operations
ROUNDTRIP and RECODE with their expansions (R52), and a program as the list of operand words presented to the ports
(R53), which is loaded from outside the machine (log entry 3). -/

namespace Sys2Proof.Machine

open Sys2Proof

/-- The two spellings of an operand or a result (R51): a signed decimal or a bit pattern. -/
inductive Spelling where
  | decimal (v : Int)
  | pattern (n : Nat)
deriving DecidableEq, Repr

/-- The `N`-bit pattern a spelling denotes, if it is in range (R7, R51). -/
def Spelling.toWord (N : Nat) : Spelling → Option (BitVec N)
  | .decimal v => if -(2 ^ (N - 1) : Int) ≤ v ∧ v < 2 ^ (N - 1) then some (BitVec.ofInt N v) else none
  | .pattern n => if n < 2 ^ N then some (BitVec.ofNat N n) else none

/-- The two words a line can begin with (R51). -/
inductive LineOp where
  | ENC
  | DEC
deriving DecidableEq, Repr

/-- One line `label: op operand => result`, the label and the result optional (R51). -/
structure TextLine where
  label : Option Nat
  op : LineOp
  operand : Spelling
  result : Option Spelling
deriving DecidableEq, Repr

/-- The operation a line denotes; an omitted label is instance 0 (R51; DEDUCED, log entry 9). -/
def TextLine.toInstr (l : TextLine) : Option Instr :=
  match l.op with
  | .ENC => (l.operand.toWord 16).map (Instr.alawEnc (l.label.getD 0))
  | .DEC => (l.operand.toWord 8).map (Instr.alawDec (l.label.getD 0))

/-- The line is an operation, and the result written on it, if any, is the operation's. -/
def TextLine.agrees (l : TextLine) : Bool :=
  match l.toInstr with
  | some (.alawEnc _ x) => (l.result.map (fun r => r.toWord 8 == some (alawEncode x))).getD true
  | some (.alawDec _ y) => (l.result.map (fun r => r.toWord 16 == some (alawDecode y))).getD true
  | none => false

/-- The document's `decode(encode(x))`: the result of ROUNDTRIP (R52). -/
def roundtrip (x : Sample) : Sample := alawDecode (alawEncode x)

/-- The document's `encode(decode(y))`: the result of RECODE (R52). -/
def recode (y : Code) : Code := alawEncode (alawDecode y)

/-- A line of a program (R53): an operation, or a pseudo-operation on a named encoder and decoder. -/
inductive ProgramLine where
  | op (i : Instr)
  | roundtrip (e d : Nat) (x : Sample)
  | recode (d e : Nat) (y : Code)
deriving DecidableEq, Repr

/-- The operations a line expands to (R52): the second is presented the first one's result. -/
def ProgramLine.expand : ProgramLine → List Instr
  | .op i => [i]
  | .roundtrip e d x => [.alawEnc e x, .alawDec d (alawEncode x)]
  | .recode d e y => [.alawDec d y, .alawEnc e (alawDecode y)]

/-- The pair a pseudo-operation names is wired as R52 says, output of the first to input of the second, and the first
one's input is the host's to drive. -/
def ProgramLine.wiredIn (s : State) : ProgramLine → Bool
  | .op _ => false
  | .roundtrip e d _ => s.hostDrivesEnc e && s.decIn[d]? == some (.wire e)
  | .recode d e _ => s.hostDrivesDec d && s.encIn[e]? == some (.wire d)

/-- The operations the host presents for a line in this system: on a pair wired as R52 says only the first, because the
wire presents the second its operand; else the whole expansion (log entry 13). -/
def ProgramLine.presents (s : State) (l : ProgramLine) : List Instr :=
  if l.wiredIn s then l.expand.take 1 else l.expand

/-- Every instance a line names is in this system. -/
def ProgramLine.fits (s : State) (l : ProgramLine) : Bool := l.expand.all s.has

/-- The operations of a program in this system, in order. -/
def programOps (s : State) (ls : List ProgramLine) : List Instr := ls.flatMap (fun l => l.presents s)

/-- The operand word of a line: the one that begins it (R53). -/
def ProgramLine.word : ProgramLine → Presented
  | .op i => encode i
  | .roundtrip e _ x => .onPcmI e x
  | .recode d _ y => .onAlawI d y

/-- The encoding of a program: the list of operand words, one word per line (R53). -/
def programWords (ls : List ProgramLine) : List Presented := ls.map ProgramLine.word

/-- The host takes up a program: the words of its operations are the ones still to be presented.  They are the
program's encoding, with a word more after each pseudo-operation on a pair that is not wired, whose second operand the
host carries over (R52; log entry 13). -/
def State.load (s : State) (ls : List ProgramLine) : State := s.setPending ((programOps s ls).map encode)

/-- The result of a line: what an output port carries, of either format (R40). -/
inductive Result where
  | code (r : Code)
  | sample (r : Sample)
deriving DecidableEq, Repr

/-- The result of an observed triple. -/
def Obs.result : Obs → Result
  | .enc _ _ r => .code r
  | .dec _ _ r => .sample r

/-- The result a line stands for (R52, R53). -/
def ProgramLine.result : ProgramLine → Result
  | .op (.alawEnc _ x) => .code (alawEncode x)
  | .op (.alawDec _ y) => .sample (alawDecode y)
  | .roundtrip _ _ x => .sample (Sys2Proof.Machine.roundtrip x)
  | .recode _ _ y => .code (Sys2Proof.Machine.recode y)

/-- The list of results of a program, one per line: its end state (R53). -/
def programResults (ls : List ProgramLine) : List Result := ls.map ProgramLine.result

/-- The result observed last. -/
def State.lastResult (s : State) : PortValue Result :=
  match s.trace.getLast? with
  | some o => .value o.result
  | none => .undriven

/-- What the host reads as a line's result once the line has run: on a wired pair the output port at the end of the
wire (R52), else the result it observed last (R102). -/
def ProgramLine.read (s : State) (l : ProgramLine) : PortValue Result :=
  match l, l.wiredIn s with
  | .roundtrip _ d _, true => (s.pcmO d).map .sample
  | .recode _ e _, true => (s.alawO e).map .code
  | _, _ => s.lastResult

end Sys2Proof.Machine
end

