-- ==== Sys2Proof/Machine/ClosedForm.lean ====
section
/-! DEFINITION. The closed forms the spec gives beside the step-by-step algorithms, written in whole-number arithmetic:
spec/40_encoder.md R59 and R62, spec/41_decoder.md R71, spec/42_codec_laws.md R80.  No meaning calls them: statements
compare the machine with them (spec/00_scope.md R11). -/

namespace Sys2Proof.Machine

open Sys2Proof

/-- The priority encoder of R59. -/
def positionByBits (m : BitVec 16) : Nat :=
  if m.getLsbD 11 then 11 else if m.getLsbD 10 then 10 else if m.getLsbD 9 then 9 else if m.getLsbD 8 then 8
  else if m.getLsbD 7 then 7 else if m.getLsbD 6 then 6 else if m.getLsbD 5 then 5 else 4

/-- The count of leading zeros of R59 over a 12-bit field, bit `n - 1` first: `clz12 m` is `leadingZeros 12 m`. -/
def leadingZeros : Nat → BitVec 16 → Nat
  | 0, _ => 0
  | n + 1, m => if m.getLsbD n then 0 else leadingZeros n m + 1

/-- The clamped magnitude of a sample's value. -/
def clampedMag (v : Int) : Nat := min v.natAbs 4095

/-- `SEG` for a clamped magnitude (R62). -/
def segOf (m : Nat) : Nat := if m ≤ 31 then 0 else Nat.log2 m - 4

/-- `MANT` for a clamped magnitude (R62). -/
def mantOf (m : Nat) : Nat := if m ≤ 31 then m / 2 else m / 2 ^ (Nat.log2 m - 4) - 16

/-- The plain form, as a number, for the sample of value `v` (R62). -/
def plainOf (v : Int) : Nat :=
  128 * (if v < 0 then 1 else 0) + 16 * segOf (clampedMag v) + mantOf (clampedMag v)

/-- The lower end of the interval of magnitudes with these fields (R62). -/
def intervalLo (seg mant : Nat) : Nat := if seg = 0 then 2 * mant else 2 ^ (seg + 4) + mant * 2 ^ seg

/-- The upper end of that interval (R62). -/
def intervalHi (seg mant : Nat) : Nat := if seg = 0 then 2 * mant + 1 else intervalLo seg mant + 2 ^ seg - 1

/-- The decoded magnitude for these fields (R71). -/
def magnitudeOf (seg mant : Nat) : Nat := if seg = 0 then 2 * mant + 1 else (2 * mant + 33) * 2 ^ (seg - 1)

/-- The decoder in closed form, as a whole number (R71). -/
def decodedValue (y : Code) : Int :=
  let f := wireFields y
  let d : Int := magnitudeOf f.seg.toNat f.mant.toNat
  if f.s = 1 then -d else d

/-- The error bound of a position (R80). -/
def errorBound (position : Nat) : Int := max 1 (2 ^ (position - 5))

end Sys2Proof.Machine
end

