-- ==== Sys2Proof/Machine/ProgramRun.lean ====
section
/-! DEFINITION. A program run on the machine, line by line, with the list of results the host reads
(spec/30_encoding.md R53, spec/70_reset_and_hazards.md R102). -/

namespace Sys2Proof.Machine

open Sys2Proof

/-- The state and the list of results with one more result in front, whatever the outcome. -/
def consResult (r : PortValue Result) :
    Host.Outcome (State × List (PortValue Result)) Fault Refusal →
      Host.Outcome (State × List (PortValue Result)) Fault Refusal
  | .next (t, rs) => .next (t, r :: rs)
  | .fault f => .fault f
  | .refused f => .refused f

/-- The host presents the words of each line in turn and reads that line's result: one result per line (R53). -/
def runProgram : List ProgramLine → State → Host.Outcome (State × List (PortValue Result)) Fault Refusal
  | [], s => .next (s, [])
  | l :: ls, s =>
    match Host.Core.run Sys2Proof.core (l.presents s).length (s.load [l]) with
    | .next t => consResult (l.read t) (runProgram ls t)
    | .fault f => .fault f
    | .refused f => .refused f

end Sys2Proof.Machine
end

