-- ==== Sys2Proof/Safety.lean ====
section
/-! DEFINITION. What the statements mean by a lawful record and a safe run. -/

namespace Sys2Proof.Machine

open Sys2Proof

/-- The observation an operation gives: its triple of instance, operand and result (spec/70_reset_and_hazards.md
R102), the result being the unit's function of the operand (spec/10_state.md R27). -/
def Obs.ofInstr : Instr → Obs
  | .alawEnc k x => .enc k x (alawEncode x)
  | .alawDec k y => .dec k y (alawDecode y)

/-- The result of a recorded triple is the closed form of its operand (spec/40_encoder.md R62, spec/41_decoder.md
R71). -/
def Obs.lawful : Obs → Bool
  | .enc _ x r => r == BitVec.ofNat 8 (plainOf x.toInt) ^^^ 0x55
  | .dec _ y r => r.toInt == decodedValue y

/-- Every recorded triple is lawful: the law of R27. -/
def State.traceLawful (s : State) : Bool := s.trace.all Obs.lawful

/-- Every word still to be presented goes to an instance that exists: the run the spec speaks of (R102, R103). -/
def State.safe (s : State) : Bool := s.pending.all (fun p => s.has (decode p))

/-- The wire, if any, that drives an input. -/
def Drive.source {α : Type} : Drive α → Option Nat
  | .host _ => none
  | .wire j => some j

/-- Two states of one system: the same instances and the same wires. -/
def State.sameNetwork (s t : State) : Bool :=
  s.encIn.map Drive.source == t.encIn.map Drive.source && s.decIn.map Drive.source == t.decIn.map Drive.source

end Sys2Proof.Machine
end

