-- ==== Sys2Proof/Certificates/Slice0/Obligations.lean ====
section
/-! DEFINITION. The statements for the provers.  Each docstring names the rules of spec/ it formalises.  The block has
no register, flag, status register, memory, program counter or exception register (R15 to R18, R28, R84), so a frame
here speaks of every field of the state: the drivers of all input ports, the words still to be presented, the record. -/

open Sys2Proof Sys2Proof.Machine

/-! ### Presenting, decoding, the state after reset -/

/-- R48, R53: an operation and the operand word on its port determine each other. -/
def Obligations.DecodeInvertsEncode : Prop :=
  (∀ i : Instr, decode (encode i) = i) ∧ (∀ p : Presented, encode (decode p) = p)

/-- R48, R50: words of the opcode table, -1000 and its code written out bit by bit from R41 and R42, and every other
word of the two widths, decode to the operation of the unit of that width (instance 0: log entry 9). -/
def Obligations.TableWordsDecode : Prop :=
  decodeTableWord 16 0b1111110000011000 = some (.alawEnc 0 (-1000)) ∧
  decodeTableWord 8 0b10001010 = some (.alawDec 0 (0b11011111 ^^^ 0b01010101)) ∧
  (∀ x : Sample, decodeTableWord 16 x.toNat = some (.alawEnc 0 x)) ∧
  (∀ y : Code, decodeTableWord 8 y.toNat = some (.alawDec 0 y))

/-- R42, R43, R45, R46, R49: wire codes and field triples correspond one to one, and a code is
`(128*S + 16*SEG + MANT) ^ 0x55`. -/
def Obligations.CodeFieldsRoundTrip : Prop :=
  (∀ f : CodeFields, wireFields (wireOf f) = f) ∧
  (∀ c : Code, wireOf (wireFields c) = c) ∧
  (∀ f : CodeFields,
    wireOf f = BitVec.ofNat 8 (128 * f.s.toNat + 16 * f.seg.toNat + f.mant.toNat) ^^^ 0x55)

/-- R26, R92, R94: after reset nothing has been presented or recorded, and there are as many instances as the two
arguments say, zero included.  The counts 1 and 1 of `State.reset` and the pattern 0 on its inputs are the model's
choice (log entries 1 and 2). -/
def Obligations.ResetHoldsNothing : Prop :=
  State.reset = State.resetWith 1 1 ∧
  ∀ nEnc nDec : Nat,
    (State.resetWith nEnc nDec).encIn.length = nEnc ∧ (State.resetWith nEnc nDec).decIn.length = nDec ∧
    (State.resetWith nEnc nDec).pending = [] ∧ (State.resetWith nEnc nDec).trace = [] ∧
    (∀ k, k < nEnc → (State.resetWith nEnc nDec).encIn[k]? = some (.host 0)) ∧
    (∀ k, k < nDec → (State.resetWith nEnc nDec).decIn[k]? = some (.host 0))

/-- R95: outputs follow inputs at reset too: an encoder input held at 0x0000 gives 0x55 and a decoder input held at
0x00 gives 688.  That the inputs are held at 0 is the model's choice (log entry 2). -/
def Obligations.OutputsAtReset : Prop :=
  ∀ nEnc nDec k : Nat,
    (k < nEnc → (State.resetWith nEnc nDec).alawO k = .value 0x55) ∧
    (k < nDec → (State.resetWith nEnc nDec).pcmO k = .value 688)

/-! ### One step -/

/-- R34, R48, R102: a step runs the operation its next word is, in the state in which that word is no longer to
come.  That the words to come are a list in the state is log entry 3. -/
def Obligations.StepRunsDecodedOperation : Prop :=
  ∀ (s : State) (p : Presented) (ps : List Presented),
    s.pending = p :: ps → step s = exec (decode p) { s with pending := ps }

/-- R33: with nothing left to present a step changes nothing.  That such a step goes on is the model's choice (log
entry 4). -/
def Obligations.IdleStepKeepsState : Prop :=
  ∀ s : State, s.pending = [] → step s = .next s

/-- R48, R53: the word placed by `withFetchWord` is the one the next step runs, and nothing else is changed.  That a
table word goes to instance 0 and that it is placed at the head of the host's list are the model's conventions (log
entries 9 and 3). -/
def Obligations.PlacedWordRunsNext : Prop :=
  ∀ s : State,
    (∀ x : Sample, step (s.withFetchWord 16 x.toNat) = exec (.alawEnc 0 x) s) ∧
    (∀ y : Code, step (s.withFetchWord 8 y.toNat) = exec (.alawDec 0 y) s)

/-! ### The two operations: completion, result, frame, stops -/

/-- R54, R62, R85: presented any sample, an encoder that exists answers, and the next state is given whole: the record
gains the triple whose result is the interval map's code, and an input the host drives holds the sample.  That it holds
it from then on, and that an input a wire drives is the wire's again, are the model's choice (log entries 10 and 7). -/
def Obligations.AlawEncCompletes : Prop :=
  ∀ (k : Nat) (x : Sample) (s : State),
    (s.hostDrivesEnc k = true →
      exec (.alawEnc k x) s = .next
        { s with
          encIn := s.encIn.set k (.host x)
          trace := s.trace ++ [.enc k x (BitVec.ofNat 8 (plainOf x.toInt) ^^^ 0x55)] }) ∧
    (∀ j : Nat, s.encIn[k]? = some (.wire j) →
      exec (.alawEnc k x) s = .next
        { s with trace := s.trace ++ [.enc k x (BitVec.ofNat 8 (plainOf x.toInt) ^^^ 0x55)] })

/-- R63, R71, R85: presented any code, a decoder that exists answers, and the next state is given whole: the record
gains the triple whose result is the closed form's value, and an input the host drives holds the code.  That it holds
it from then on, and that an input a wire drives is the wire's again, are the model's choice (log entries 10 and 7). -/
def Obligations.AlawDecCompletes : Prop :=
  ∀ (k : Nat) (y : Code) (s : State),
    (s.hostDrivesDec k = true →
      exec (.alawDec k y) s = .next
        { s with
          decIn := s.decIn.set k (.host y)
          trace := s.trace ++ [.dec k y (BitVec.ofInt 16 (decodedValue y))] }) ∧
    (∀ j : Nat, s.decIn[k]? = some (.wire j) →
      exec (.alawDec k y) s = .next
        { s with trace := s.trace ++ [.dec k y (BitVec.ofInt 16 (decodedValue y))] })

/-- Frame of ALAW_ENC (R19, R25, R54): no other encoder's input, no decoder's input, no word still to come and no
earlier observation changes. -/
def Obligations.AlawEncFrame : Prop :=
  ∀ (k : Nat) (x : Sample) (s t : State), exec (.alawEnc k x) s = .next t →
    t.encIn.length = s.encIn.length ∧
    (∀ k', k' ≠ k → t.encIn[k']? = s.encIn[k']?) ∧
    t.decIn = s.decIn ∧ t.pending = s.pending ∧ t.trace.dropLast = s.trace

/-- Frame of ALAW_DEC (R19, R25, R63): no other decoder's input, no encoder's input, no word still to come and no
earlier observation changes. -/
def Obligations.AlawDecFrame : Prop :=
  ∀ (k : Nat) (y : Code) (s t : State), exec (.alawDec k y) s = .next t →
    t.decIn.length = s.decIn.length ∧
    (∀ k', k' ≠ k → t.decIn[k']? = s.decIn[k']?) ∧
    t.encIn = s.encIn ∧ t.pending = s.pending ∧ t.trace.dropLast = s.trace

/-- R84, R85: no operand stops an operation: at an instance that exists every operand gets its result, and whether an
operation stops does not depend on its operand. -/
def Obligations.NoOperandStopsAnOperation : Prop :=
  (∀ (i : Instr) (s : State), s.has i = true → ∃ t, exec i s = .next t) ∧
  (∀ (k : Nat) (x x' : Sample) (s t : State), exec (.alawEnc k x) s = .next t →
    ∃ t', exec (.alawEnc k x') s = .next t') ∧
  (∀ (k : Nat) (y y' : Code) (s t : State), exec (.alawDec k y) s = .next t →
    ∃ t', exec (.alawDec k y') s = .next t')

/-- Where an operation stops, and that it stops nowhere else: at an instance the system does not have, which is what an
ill-formed operation names (the model's choice, log entry 6).  It never refuses (R85). -/
def Obligations.StopsOnlyOnTheHostsMistake : Prop :=
  (∀ (k : Nat) (x : Sample) (s : State), s.encIn[k]? = none → exec (.alawEnc k x) s = .fault .noSuchInstance) ∧
  (∀ (k : Nat) (y : Code) (s : State), s.decIn[k]? = none → exec (.alawDec k y) s = .fault .noSuchInstance) ∧
  (∀ (i : Instr) (s : State) (f : Fault),
    exec i s = .fault f ↔ (f = .noSuchInstance ∧ i.wellFormed s.encIn.length s.decIn.length = false)) ∧
  (∀ (i : Instr) (s : State) (r : Refusal), exec i s ≠ .refused r)

/-! ### The steps of the encoder -/

/-- R55, R56: the sign flag is 0x80 exactly below zero and the magnitude is the absolute value, 32768 for the minimum
sample, whose code is 0xAA. -/
def Obligations.EncSignAndMagnitude : Prop :=
  (∀ x : Sample,
    (encSignMag x).1 = (if x.toInt < 0 then 0x80 else 0x00) ∧ (encSignMag x).2.toNat = x.toInt.natAbs) ∧
  (encSignMag 0x8000).2.toNat = 32768 ∧ alawEncode 0x8000 = 0xAA ∧
  encSignMag 0xFC18 = (0x80, 1000) ∧ encSignMag 0x03E8 = (0x00, 1000)

/-- R57: the clamp is the minimum with 4095, equally the replacement of any value with one of bits 15 to 12 set. -/
def Obligations.EncClampIsMinimum : Prop :=
  ∀ m : BitVec 16,
    (encClamp m).toNat = min m.toNat 4095 ∧
    encClamp m = (if m.extractLsb' 12 4 ≠ 0 then 0x0FFF else m)

/-- R58: the loop ends with a position from 4 to 11, at the first position counting down from 11 whose bit is set, and
at 4 if bits 11 to 5 are all clear. -/
def Obligations.EncPositionIsFirstSetBit : Prop :=
  ∀ m : BitVec 16,
    4 ≤ encPosition m ∧ encPosition m ≤ 11 ∧
    (∀ q, encPosition m < q → q ≤ 11 → m.getLsbD q = false) ∧
    (4 < encPosition m → m.getLsbD (encPosition m) = true)

/-- R59: on clamped magnitudes the loop equals the priority encoder, `max(4, floor(log2(mag)))`,
`max(4, 11 - clz12(mag))`, and is 4 exactly up to 31. -/
def Obligations.EncPositionClosedForms : Prop :=
  ∀ m : BitVec 16, m.toNat ≤ 4095 →
    encPosition m = positionByBits m ∧
    (m.toNat = 0 → encPosition m = 4) ∧
    (1 ≤ m.toNat → encPosition m = max 4 (Nat.log2 m.toNat)) ∧
    encPosition m = max 4 (11 - leadingZeros 12 m) ∧
    (encPosition m = 4 ↔ m.toNat ≤ 31) ∧
    (32 ≤ m.toNat → 2 ^ encPosition m ≤ m.toNat ∧ m.toNat < 2 ^ (encPosition m + 1))

/-- R60: the mantissa is the four bits from `position - 4` up, or bits 4 to 1 at position 4. -/
def Obligations.EncMantissaField : Prop :=
  ∀ (m : BitVec 16) (p : Nat), 4 ≤ p → p ≤ 11 →
    (encMantissa m p).toNat = m.toNat / 2 ^ (if p = 4 then 1 else p - 4) % 16

/-- R45, R61: the three terms of the plain form do not overlap, so it is their sum; the code is its inversion and is
negative exactly when the sign flag is set. -/
def Obligations.EncComposeIsConcatenation : Prop :=
  ∀ (sign lsb : Code) (p : Nat), (sign = 0x00 ∨ sign = 0x80) → 4 ≤ p → p ≤ 11 → lsb.toNat < 16 →
    encCompose sign p lsb = BitVec.ofNat 8 (sign.toNat + 16 * (p - 4) + lsb.toNat) ^^^ 0x55 ∧
    ((encCompose sign p lsb).toInt < 0 ↔ sign = 0x80)

/-- R62: the clamped magnitudes with given fields are exactly one interval, and every sample whose
clamped magnitude lies in it has that code. -/
def Obligations.EncoderIntervals : Prop :=
  ∀ seg mant : Nat, seg < 8 → mant < 16 →
    (∀ m, m ≤ 4095 →
      ((segOf m = seg ∧ mantOf m = mant) ↔ (intervalLo seg mant ≤ m ∧ m ≤ intervalHi seg mant))) ∧
    (∀ x : Sample, intervalLo seg mant ≤ clampedMag x.toInt → clampedMag x.toInt ≤ intervalHi seg mant →
      alawEncode x = BitVec.ofNat 8 ((if x.toInt < 0 then 128 else 0) + 16 * seg + mant) ^^^ 0x55)

/-! ### The steps of the decoder -/

/-- R64, R65, R66: the inversion, the sign bit, the byte without it, and the position, from 4 to 11. -/
def Obligations.DecSignAndPosition : Prop :=
  ∀ y : Code,
    decUninvert y = y ^^^ 0x55 ∧
    (decSign (decUninvert y)).1 = y.getLsbD 7 ∧
    (decSign (decUninvert y)).2.toNat = (y ^^^ 0x55).toNat % 128 ∧
    decPosition (decSign (decUninvert y)).2 = (y ^^^ 0x55).toNat % 128 / 16 + 4

/-- R67, R68: at positions 5 to 11 the three terms do not overlap, so the magnitude is their sum; at position 4 it is
twice the nibble plus one. -/
def Obligations.DecMagnitudeSums : Prop :=
  (∀ (w : Code) (p : Nat), w.toNat < 128 → 5 ≤ p → p ≤ 11 →
    (decMagnitude w p).toNat = 2 ^ p + w.toNat % 16 * 2 ^ (p - 4) + 2 ^ (p - 5)) ∧
  (∀ w : Code, w.toNat < 128 → decPosition w = 4 →
    (decMagnitude w 4).toNat = 2 * (w.toNat % 16) + 1)

/-- R69: the magnitude is 1 to 4032, so the decoder never answers 0. -/
def Obligations.DecMagnitudeRange : Prop :=
  ∀ y : Code,
    1 ≤ (alawMagnitude y).toNat ∧ (alawMagnitude y).toNat ≤ 4032 ∧ alawDecode y ≠ 0

/-- R70: applying the sign gives exactly `-d` or `d`. -/
def Obligations.DecApplySignIsExact : Prop :=
  ∀ d : BitVec 16, 1 ≤ d.toNat → d.toNat ≤ 4032 →
    (decApplySign true d).toInt = -(d.toNat : Int) ∧ (decApplySign false d).toInt = (d.toNat : Int)

/-- R21, R71, R72: the magnitudes of the closed form, and the decoder's own for the code of given fields, strictly
increase with `16*SEG + MANT`; each lies in the encoder's interval of the same fields (at its upper end for SEG 0, at
offset `2^(SEG-1)` from its lower end otherwise); the decoder is one-to-one, and bits 15 to 12 of a result are copies
of its sign. -/
def Obligations.DecoderValueSet : Prop :=
  (∀ seg mant seg' mant' : Nat, seg < 8 → mant < 16 → seg' < 8 → mant' < 16 →
    16 * seg + mant < 16 * seg' + mant' → magnitudeOf seg mant < magnitudeOf seg' mant') ∧
  (∀ seg mant : Nat, seg < 8 → mant < 16 →
    magnitudeOf seg mant ≤ intervalHi seg mant ∧
    (seg = 0 → magnitudeOf seg mant = intervalHi seg mant) ∧
    (1 ≤ seg → magnitudeOf seg mant = intervalLo seg mant + 2 ^ (seg - 1))) ∧
  (∀ f g : CodeFields, 16 * f.seg.toNat + f.mant.toNat < 16 * g.seg.toNat + g.mant.toNat →
    (alawMagnitude (wireOf f)).toNat < (alawMagnitude (wireOf g)).toNat) ∧
  (∀ f : CodeFields,
    intervalLo f.seg.toNat f.mant.toNat ≤ (alawMagnitude (wireOf f)).toNat ∧
    (alawMagnitude (wireOf f)).toNat ≤ intervalHi f.seg.toNat f.mant.toNat ∧
    (f.seg = 0 → (alawMagnitude (wireOf f)).toNat = intervalHi f.seg.toNat f.mant.toNat) ∧
    (f.seg ≠ 0 →
      (alawMagnitude (wireOf f)).toNat = intervalLo f.seg.toNat f.mant.toNat + 2 ^ (f.seg.toNat - 1))) ∧
  (∀ y y' : Code, alawDecode y = alawDecode y' → y = y') ∧
  (∀ (y : Code) (b : Nat), 12 ≤ b → b ≤ 15 → (alawDecode y).getLsbD b = y.getLsbD 7)

/-! ### The laws of the pair -/

/-- R11, R62, R71: the step-by-step algorithms and the closed forms are the same hardware, on every operand. -/
def Obligations.CodecEqualsClosedForms : Prop :=
  (∀ x : Sample, alawEncode x = BitVec.ofNat 8 (plainOf x.toInt) ^^^ 0x55) ∧
  (∀ y : Code, (alawDecode y).toInt = decodedValue y)

/-- R74: odd symmetry of the encoder, at the minimum sample too, and of the decoder; 0xD5 comes from -1 alone. -/
def Obligations.OddSymmetry : Prop :=
  (∀ x : Sample, 1 ≤ x.toInt → alawEncode (-x) = alawEncode x ^^^ 0x80) ∧
  alawEncode 0x8000 = alawEncode 0x7FFF ^^^ 0x80 ∧ alawEncode 0x8000 = 0xAA ∧
  alawEncode 0 ^^^ 0x80 = 0xD5 ∧ (∀ x : Sample, alawEncode x = 0xD5 ↔ x.toInt = -1) ∧
  (∀ y : Code, (alawDecode (y ^^^ 0x80)).toInt = -(alawDecode y).toInt)

/-- R75: every sample above 4095 has the code of 4095 and every sample below -4095 the code of -4095; 0x2A is the code
of exactly the samples from 3968 and 0xAA of exactly those down from -3968. -/
def Obligations.ClampingLaw : Prop :=
  (∀ x : Sample, 4096 ≤ x.toInt → alawEncode x = alawEncode 4095 ∧ alawEncode x = 0x2A) ∧
  (∀ x : Sample, x.toInt ≤ -4096 → alawEncode x = alawEncode (-4095) ∧ alawEncode x = 0xAA) ∧
  (∀ x : Sample, alawEncode x = 0x2A ↔ 3968 ≤ x.toInt) ∧
  (∀ x : Sample, alawEncode x = 0xAA ↔ x.toInt ≤ -3968)

/-- R76: the round trip keeps the sign, strictly, and 0 becomes 1. -/
def Obligations.SignPreservation : Prop :=
  (∀ x : Sample, 0 < x.toInt → 1 ≤ (roundtrip x).toInt) ∧
  (∀ x : Sample, x.toInt < 0 → (roundtrip x).toInt ≤ -1) ∧
  roundtrip 0 = 1 ∧ (∀ x : Sample, roundtrip x ≠ 0)

/-- R77: the code of 0 is 0x55, its decode is 1, and only 0x55 and 0xD5 decode to the smallest magnitude. -/
def Obligations.ValueAtZero : Prop :=
  alawEncode 0 = 0x55 ∧ (alawEncode 0).toInt = 85 ∧ alawDecode 0x55 = 1 ∧ (alawDecode 0xD5).toInt = -1 ∧
  (∀ y : Code, 1 ≤ (alawDecode y).toInt.natAbs ∧ ((alawDecode y).toInt.natAbs = 1 ↔ (y = 0x55 ∨ y = 0xD5)))

/-- R78, run on the machine: whatever code a decoder is presented, an encoder presented the decoder's result answers
that code; so every code is some sample's. -/
def Obligations.RecodingIsIdentity : Prop :=
  (∀ (s : State) (j k : Nat) (y : Code), j < s.decIn.length → k < s.encIn.length →
    ∃ (r : Sample) (t u : State),
      exec (.alawDec j y) s = .next t ∧ t.trace = s.trace ++ [.dec j y r] ∧
      exec (.alawEnc k r) t = .next u ∧ u.trace = t.trace ++ [.enc k r y]) ∧
  (∀ y : Code, recode y = y) ∧
  (∀ y : Code, ∃ x : Sample, alawEncode x = y) ∧
  (∀ y y' : Code, alawDecode y = alawDecode y' → y = y')

/-- R79: the round trip is idempotent, never reverses an order, and takes exactly 256 values. -/
def Obligations.RoundTripIdempotentMonotone : Prop :=
  (∀ x : Sample, roundtrip (roundtrip x) = roundtrip x) ∧
  (∀ a b : Sample, a.toInt ≤ b.toInt → (roundtrip a).toInt ≤ (roundtrip b).toInt) ∧
  (Set.range roundtrip).ncard = 256

/-- R80: the quantisation error inside [-4095, 4095] is bounded by `max(1, 2^(pos(x) - 5))`; its signed range by
position, for samples from 0 and mirrored below; where the largest error, 64, is reached; the errors at 4095 and at the
two ends of the sample range. -/
def Obligations.QuantisationErrorBound : Prop :=
  (∀ x : Sample, -4095 ≤ x.toInt → x.toInt ≤ 4095 →
    ((roundtrip x).toInt - x.toInt).natAbs ≤ errorBound (alawPosition x) ∧
    ((roundtrip x).toInt - x.toInt).natAbs ≤ 64 ∧
    (((roundtrip x).toInt - x.toInt).natAbs = 64 ↔ ∃ k : Nat, k ≤ 15 ∧ x.toInt.natAbs = 2048 + 128 * k)) ∧
  (∀ x : Sample, 0 ≤ x.toInt → x.toInt ≤ 4095 →
    1 - errorBound (alawPosition x) ≤ (roundtrip x).toInt - x.toInt ∧
    (roundtrip x).toInt - x.toInt ≤ errorBound (alawPosition x)) ∧
  (∀ x : Sample, -4095 ≤ x.toInt → x.toInt < 0 →
    -errorBound (alawPosition x) ≤ (roundtrip x).toInt - x.toInt ∧
    (roundtrip x).toInt - x.toInt ≤ errorBound (alawPosition x) - 1) ∧
  (roundtrip 4095).toInt = 4032 ∧ (roundtrip 32767).toInt = 4032 ∧ (roundtrip (-32768)).toInt = -4032

/-- R82: bit 7 of a code is set exactly for samples below zero, and a code decodes below zero exactly when its bit 7 is
set. -/
def Obligations.SignBitOfCode : Prop :=
  (∀ x : Sample, (alawEncode x).getLsbD 7 = true ↔ x.toInt < 0) ∧
  (∀ x : Sample, (alawEncode x).toInt < 0 ↔ x.toInt < 0) ∧
  (∀ y : Code, (alawDecode y).toInt < 0 ↔ y.getLsbD 7 = true) ∧
  (∀ y : Code, (y ^^^ 0x55).getLsbD 7 = y.getLsbD 7)

/-- R83: the document's vectors, evaluated. -/
def Obligations.DocumentVectors : Prop :=
  alawEncode 0 = 0x55 ∧ alawDecode 0x55 = 1 ∧
  alawEncode 1000 = 0x0A ∧ alawPosition 1000 = 9 ∧
  (wireFields 0x0A).seg = 5 ∧ (wireFields 0x0A).mant = 15 ∧ (alawDecode 0x0A).toInt = 1008 ∧
  (alawDecode 0x0A).toInt - 1000 = 8 ∧ errorBound 9 = 16 ∧
  alawEncode (-1000) = 0x8A ∧ (alawEncode (-1000)).toInt = -118 ∧
  (alawEncode (-1000)).getLsbD 7 = true ∧ (alawDecode 0x8A).toInt = -1008

/-! ### The system of instances and its host -/

/-- R27: every step keeps the law of the record: each recorded result is the unit's function, in its closed form, of
the operand recorded with it.  That the record is in the state is log entry 5. -/
def Obligations.StepKeepsTraceLaw : Prop :=
  ∀ s t : State, s.traceLawful = true → step s = .next t → t.traceLawful = true

/-- R26, R27: the record is lawful after reset, for any counts of instances. -/
def Obligations.TraceLawfulAtReset : Prop :=
  State.reset.traceLawful = true ∧ ∀ nEnc nDec : Nat, (State.resetWith nEnc nDec).traceLawful = true

/-- No step adds, removes or rewires an instance, whatever is presented.  That the counts and the wires are fixed during
a run is the model's choice (log entries 1 and 8), for systems in the sense of R25 and R92. -/
def Obligations.StepKeepsNetwork : Prop :=
  ∀ s t : State, step s = .next t → s.sameNetwork t = true

/-- R84, R102: while every word still to be presented goes to an instance that exists, a step answers a next state, in
which that holds again.  That a step with nothing left to present answers too is the model's choice (log entry 4). -/
def Obligations.SafeStepNeverStops : Prop :=
  ∀ s : State, s.safe = true → ∃ t, step s = .next t ∧ t.safe = true

/-- R34, R102: a run presents its words in order, ends after as many steps, and its record is the list of triples
(instance, operand, the unit's function of the operand), whatever was recorded before.  That the instances and wires
are the same at its end is the model's choice (log entries 1 and 8). -/
def Obligations.RunGivesListOfResults : Prop :=
  ∀ s : State, s.safe = true →
    ∃ t : State, Host.Core.run core s.pending.length s = .next t ∧
      t.pending = [] ∧ s.sameNetwork t = true ∧
      t.trace = s.trace ++ s.pending.map (fun p => Obs.ofInstr (decode p))

/-- R34, R35: presenting the same words in another order gives the same triples in another order.  That operations are
taken one after another from a list is log entries 3 and 14. -/
def Obligations.ReorderingPermutesResults : Prop :=
  ∀ (s : State) (ps : List Presented), s.safe = true → ps.Perm s.pending →
    ∃ (t u : State) (a b : List Obs),
      Host.Core.run core s.pending.length s = .next t ∧
      Host.Core.run core ps.length { s with pending := ps } = .next u ∧
      t.trace = s.trace ++ a ∧ u.trace = s.trace ++ b ∧ a.Perm b

/-- R33, R73, R93: the triple an operation gives is the same in any two states in which it completes, and the result is
the same at any two instances. -/
def Obligations.HistoryHasNoEffect : Prop :=
  (∀ (i : Instr) (s s' t t' : State), exec i s = .next t → exec i s' = .next t' →
    ∃ o, t.trace = s.trace ++ [o] ∧ t'.trace = s'.trace ++ [o]) ∧
  (∀ (k k' : Nat) (x : Sample) (s s' t t' : State),
    exec (.alawEnc k x) s = .next t → exec (.alawEnc k' x) s' = .next t' →
    ∃ r, t.trace = s.trace ++ [.enc k x r] ∧ t'.trace = s'.trace ++ [.enc k' x r]) ∧
  (∀ (k k' : Nat) (y : Code) (s s' t t' : State),
    exec (.alawDec k y) s = .next t → exec (.alawDec k' y) s' = .next t' →
    ∃ r, t.trace = s.trace ++ [.dec k y r] ∧ t'.trace = s'.trace ++ [.dec k' y r])

/-- R35: operations of different instances may be exchanged: the inputs end the same and the record holds the same
triples.  That a wire drives its input again after an operation on it is the model's choice (log entry 7). -/
def Obligations.DifferentInstancesCommute : Prop :=
  ∀ (i j : Instr) (s t u : State), (encode i).port ≠ (encode j).port →
    exec i s = .next t → exec j t = .next u →
    ∃ t' u' : State, exec j s = .next t' ∧ exec i t' = .next u' ∧
      u'.encIn = u.encIn ∧ u'.decIn = u.decIn ∧ u'.pending = u.pending ∧ u'.trace.Perm u.trace

/-- R32: presenting the same input again changes no port and gives the same result.  That a port keeps its driver
between operations is the model's choice (log entries 7, 8 and 10). -/
def Obligations.PresentingAgainChangesNothing : Prop :=
  ∀ (i : Instr) (s t : State), exec i s = .next t →
    ∃ (u : State) (o : Obs), exec i t = .next u ∧
      u.encIn = t.encIn ∧ u.decIn = t.decIn ∧ u.pending = t.pending ∧
      t.trace = s.trace ++ [o] ∧ u.trace = t.trace ++ [o]

/-- R20, R21, R95: after an operation on an input the host drives, or on one that carries the operand already, the input
port carries the operand and the output port the unit's function of it.  That the host still holds the operand is the
model's choice (log entry 10). -/
def Obligations.PortsAfterPresenting : Prop :=
  (∀ (k : Nat) (x : Sample) (s t : State), exec (.alawEnc k x) s = .next t →
    (s.hostDrivesEnc k = true ∨ s.pcmI k = .value x) →
    t.pcmI k = .value x ∧ t.alawO k = .value (alawEncode x)) ∧
  (∀ (k : Nat) (y : Code) (s t : State), exec (.alawDec k y) s = .next t →
    (s.hostDrivesDec k = true ∨ s.alawI k = .value y) →
    t.alawI k = .value y ∧ t.pcmO k = .value (alawDecode y))

/-- R33, R35: an operation leaves every port as it was, of every instance, wired or not, whose input does not come,
directly or along wires, from the port presented.  That the other inputs are still held and still wired as before is
the model's choice (log entries 10 and 8). -/
def Obligations.OtherOutputsUnchanged : Prop :=
  ∀ (i : Instr) (s t : State), exec i s = .next t → ∀ k : Nat,
    (s.source (.pcmI k) ≠ .value (encode i).port → t.pcmI k = s.pcmI k ∧ t.alawO k = s.alawO k) ∧
    (s.source (.alawI k) ≠ .value (encode i).port → t.alawI k = s.alawI k ∧ t.pcmO k = s.pcmO k)

/-- R35: a result reaches another instance only along a wire: an input that the host drives comes from itself, and one
that a wire drives comes from where the input of the instance at the wire's other end comes from.  Wires in the state
are log entry 8. -/
def Obligations.SourceFollowsTheWires : Prop :=
  ∀ (s : State) (k : Nat),
    (s.hostDrivesEnc k = true → s.source (.pcmI k) = .value (.pcmI k)) ∧
    (s.hostDrivesDec k = true → s.source (.alawI k) = .value (.alawI k)) ∧
    (∀ j, s.encIn[k]? = some (.wire j) → s.source (.pcmI k) = s.source (.alawI j)) ∧
    (∀ j, s.decIn[k]? = some (.wire j) → s.source (.alawI k) = s.source (.pcmI j))

/-- R52, R99: with `alaw_o` wired to `alaw_i` the decoder's output is ROUNDTRIP of the sample presented to an encoder
whose input the host drives, and with `pcm_o` wired to `pcm_i` the encoder's output is the code presented to a decoder
whose input the host drives.  Wires in the state are log entry 8, and that the operand is still held log entry 10. -/
def Obligations.WiredPairComposes : Prop :=
  (∀ (k j : Nat) (x : Sample) (s t : State), s.decIn[j]? = some (.wire k) → s.hostDrivesEnc k = true →
    exec (.alawEnc k x) s = .next t → t.pcmO j = .value (roundtrip x)) ∧
  (∀ (k j : Nat) (y : Code) (s t : State), s.encIn[j]? = some (.wire k) → s.hostDrivesDec k = true →
    exec (.alawDec k y) s = .next t → t.alawO j = .value y)

/-- R35, R99: in every system, however wired, an input that a wire drives carries what the output it is wired to
carries.  That wires are in the state is log entry 8. -/
def Obligations.WireCarriesTheOutput : Prop :=
  ∀ (s : State) (k j : Nat),
    (s.decIn[k]? = some (.wire j) → s.alawI k = s.alawO j) ∧
    (s.encIn[k]? = some (.wire j) → s.pcmI k = s.pcmO j)

/-- R99: a port that has a value along its wires has it however far they are followed: only a loop of wires is read as
a loop.  That a loop reads so is log entry 8. -/
def Obligations.WalkBoundSuffices : Prop :=
  ∀ (s : State) (n k : Nat),
    (pcmIWithin n s k ≠ .loop → s.pcmI k = pcmIWithin n s k) ∧
    (alawIWithin n s k ≠ .loop → s.alawI k = alawIWithin n s k)

/-- R99, U5 of spec/93_implementation_defined.md: a decoder and an encoder wired to each other select no value.
That a loop reads as one is log entry 8. -/
def Obligations.ClosedWiresSelectNoValue : Prop :=
  ∀ (s : State) (k j : Nat), s.encIn[k]? = some (.wire j) → s.decIn[j]? = some (.wire k) →
    s.pcmI k = .loop ∧ s.alawO k = .loop ∧ s.alawI j = .loop ∧ s.pcmO j = .loop

/-- R52: a program, any list of lines on instances that exist, runs as its operations, and its record gains their
triples in order.  A pseudo-operation on a pair no wire joins is its whole expansion, ENC and then DEC of the result,
or DEC and then ENC, which answers the code it began with; on a pair wired as R52 says it is its first operation, the
wire presenting the second (log entry 13). -/
def Obligations.PseudoOperationsRun : Prop :=
  (∀ (s : State) (ls : List ProgramLine), ls.all (ProgramLine.fits s) = true →
    ∃ t : State, Host.Core.run core (s.load ls).pending.length (s.load ls) = .next t ∧ t.pending = [] ∧
      t.trace = s.trace ++ (programOps s ls).map Obs.ofInstr) ∧
  (∀ (s : State) (l : ProgramLine), l.wiredIn s = false → l.presents s = l.expand) ∧
  (∀ (s : State) (e d : Nat) (x : Sample), (ProgramLine.roundtrip e d x).wiredIn s = true →
    (ProgramLine.roundtrip e d x).presents s = [.alawEnc e x]) ∧
  (∀ (s : State) (d e : Nat) (y : Code), (ProgramLine.recode d e y).wiredIn s = true →
    (ProgramLine.recode d e y).presents s = [.alawDec d y]) ∧
  (∀ (e d : Nat) (x : Sample), (ProgramLine.roundtrip e d x).expand.map Obs.ofInstr =
    [.enc e x (alawEncode x), .dec d (alawEncode x) (roundtrip x)]) ∧
  (∀ (d e : Nat) (y : Code), (ProgramLine.recode d e y).expand.map Obs.ofInstr =
    [.dec d y (alawDecode y), .enc e (alawDecode y) y])

/-- R53: a program run on the machine, its pairs wired or not, ends with the list of its results, one per line, each
what its line stands for, in whichever order the lines stand; a RECODE line's result is the code it began with.
How the host runs a line and reads its result is log entry 13. -/
def Obligations.ProgramEndsWithItsResults : Prop :=
  (∀ (s : State) (ls : List ProgramLine), ls.all (ProgramLine.fits s) = true →
    ∃ t : State, runProgram ls s = .next (t, (programResults ls).map PortValue.value)) ∧
  (∀ (s : State) (ls ls' : List ProgramLine), ls.all (ProgramLine.fits s) = true → ls'.Perm ls →
    ∃ (t : State) (rs : List (PortValue Result)), runProgram ls' s = .next (t, rs) ∧
      rs.Perm ((programResults ls).map PortValue.value)) ∧
  (∀ (e d : Nat) (x : Sample), (ProgramLine.roundtrip e d x).result = .sample (alawDecode (alawEncode x))) ∧
  (∀ (d e : Nat) (y : Code), (ProgramLine.recode d e y).result = .code y)

/-- R52, R53: the encoding of a program is one operand word per line, and when every pseudo-operation is on a pair wired
as R52 says, those words are all the host presents (log entry 13). -/
def Obligations.WiredProgramIsItsWords : Prop :=
  (∀ ls : List ProgramLine, (programWords ls).length = ls.length) ∧
  (∀ (s : State) (ls : List ProgramLine),
    (∀ l ∈ ls, l.wiredIn s = true ∨ ∃ i, l = .op i) → (s.load ls).pending = programWords ls)

/-- R7, R51: the two spellings of a pattern denote the same word, for samples and for codes. -/
def Obligations.SpellingsDenoteOneWord : Prop :=
  (∀ x : Sample, (Spelling.decimal x.toInt).toWord 16 = some x ∧ (Spelling.pattern x.toNat).toWord 16 = some x) ∧
  (∀ y : Code, (Spelling.decimal y.toInt).toWord 8 = some y ∧ (Spelling.pattern y.toNat).toWord 8 = some y)
end

