-- ==== Sys2Proof/Laws/Codec.lean ====
section
/-! SUPPORT. Small facts about the steps of the two operations, for proofs to cite. -/

namespace Sys2Proof.Machine

open Sys2Proof

/-- The inversion undoes itself (R43). -/
@[simp] theorem invert_invert (c : Code) : invert (invert c) = c := by
  simp [invert]

/-- One pass of the segment search: the test fails and the guard holds. -/
theorem searchLoop_again {mag mask : BitVec 16} {position : Nat} (h : mag &&& mask ≠ mask) (g : 5 ≤ position)
    (n : Nat) : searchLoop (n + 1) mag mask position = searchLoop n mag (mask >>> 1) (position - 1) := by
  simp only [searchLoop, posGuard, h, g, ne_eq, not_false_eq_true, and_self, if_true]

/-- The segment search stops where the tested bit is set. -/
theorem searchLoop_found {mag mask : BitVec 16} (h : mag &&& mask = mask) (n position : Nat) :
    searchLoop n mag mask position = position := by
  cases n <;> simp [searchLoop, h]

/-- The segment search stops at the guard. -/
theorem searchLoop_guard {position : Nat} (h : position < 5) (n : Nat) (mag mask : BitVec 16) :
    searchLoop n mag mask position = position := by
  cases n with
  | zero => rfl
  | succ n => simp only [searchLoop, posGuard, Nat.not_le.2 h, and_false, if_false]

/-- The encoder's function depends on the sample through its sign and its clamped magnitude only. -/
theorem alawEncode_eq (x : Sample) :
    alawEncode x = encCompose (encSignMag x).1 (alawPosition x)
      (encMantissa (encClamp (encSignMag x).2) (alawPosition x)) := rfl

/-- The decoder's function is the sign of the operand applied to its magnitude. -/
theorem alawDecode_eq (y : Code) : alawDecode y = decApplySign (decNeg (decUninvert y)) (alawMagnitude y) := rfl

end Sys2Proof.Machine
end

