-- ==== Sys2Proof/Laws/State.lean ====
section
/-! SUPPORT. One lemma per field per update of the state, so that no proof unfolds a record update. -/

namespace Sys2Proof.Machine

open Sys2Proof

@[simp] theorem driveEnc_encIn (s : State) (k : Nat) (x : Sample) :
    (s.driveEnc k x).encIn = s.encIn.modify k (Drive.present x) := rfl
@[simp] theorem driveEnc_decIn (s : State) (k : Nat) (x : Sample) : (s.driveEnc k x).decIn = s.decIn := rfl
@[simp] theorem driveEnc_pending (s : State) (k : Nat) (x : Sample) : (s.driveEnc k x).pending = s.pending := rfl
@[simp] theorem driveEnc_trace (s : State) (k : Nat) (x : Sample) : (s.driveEnc k x).trace = s.trace := rfl

@[simp] theorem driveDec_encIn (s : State) (k : Nat) (y : Code) : (s.driveDec k y).encIn = s.encIn := rfl
@[simp] theorem driveDec_decIn (s : State) (k : Nat) (y : Code) :
    (s.driveDec k y).decIn = s.decIn.modify k (Drive.present y) := rfl
@[simp] theorem driveDec_pending (s : State) (k : Nat) (y : Code) : (s.driveDec k y).pending = s.pending := rfl
@[simp] theorem driveDec_trace (s : State) (k : Nat) (y : Code) : (s.driveDec k y).trace = s.trace := rfl

@[simp] theorem record_encIn (s : State) (o : Obs) : (s.record o).encIn = s.encIn := rfl
@[simp] theorem record_decIn (s : State) (o : Obs) : (s.record o).decIn = s.decIn := rfl
@[simp] theorem record_pending (s : State) (o : Obs) : (s.record o).pending = s.pending := rfl
@[simp] theorem record_trace (s : State) (o : Obs) : (s.record o).trace = s.trace ++ [o] := rfl

@[simp] theorem setPending_encIn (s : State) (ps : List Presented) : (s.setPending ps).encIn = s.encIn := rfl
@[simp] theorem setPending_decIn (s : State) (ps : List Presented) : (s.setPending ps).decIn = s.decIn := rfl
@[simp] theorem setPending_pending (s : State) (ps : List Presented) : (s.setPending ps).pending = ps := rfl
@[simp] theorem setPending_trace (s : State) (ps : List Presented) : (s.setPending ps).trace = s.trace := rfl

@[simp] theorem wireEnc_encIn (s : State) (k j : Nat) : (s.wireEnc k j).encIn = s.encIn.set k (.wire j) := rfl
@[simp] theorem wireEnc_decIn (s : State) (k j : Nat) : (s.wireEnc k j).decIn = s.decIn := rfl
@[simp] theorem wireEnc_pending (s : State) (k j : Nat) : (s.wireEnc k j).pending = s.pending := rfl
@[simp] theorem wireEnc_trace (s : State) (k j : Nat) : (s.wireEnc k j).trace = s.trace := rfl

@[simp] theorem wireDec_encIn (s : State) (k j : Nat) : (s.wireDec k j).encIn = s.encIn := rfl
@[simp] theorem wireDec_decIn (s : State) (k j : Nat) : (s.wireDec k j).decIn = s.decIn.set k (.wire j) := rfl
@[simp] theorem wireDec_pending (s : State) (k j : Nat) : (s.wireDec k j).pending = s.pending := rfl
@[simp] theorem wireDec_trace (s : State) (k j : Nat) : (s.wireDec k j).trace = s.trace := rfl

end Sys2Proof.Machine
end

