-- ==== Sys2Proof/Laws/Ops.lean ====
section
/-! SUPPORT. What each shared operation can do, said once. -/

namespace Sys2Proof.Machine

open Sys2Proof

/-- The host drives an encoder's input, as a fact about the list of input ports. -/
theorem hostDrivesEnc_iff (s : State) (k : Nat) :
    s.hostDrivesEnc k = true ↔ ∃ v, s.encIn[k]? = some (.host v) := by
  unfold State.hostDrivesEnc
  split <;> simp_all

/-- The host drives a decoder's input, as a fact about the list of input ports. -/
theorem hostDrivesDec_iff (s : State) (k : Nat) :
    s.hostDrivesDec k = true ↔ ∃ v, s.decIn[k]? = some (.host v) := by
  unfold State.hostDrivesDec
  split <;> simp_all

@[simp] theorem present_host {α : Type} (v w : α) : Drive.present v (.host w) = .host v := rfl
@[simp] theorem present_wire {α : Type} (v : α) (j : Nat) : Drive.present v (.wire j) = .wire j := rfl

/-- Presenting a pattern on a port the host drives leaves it there. -/
theorem modify_present_host {α : Type} {l : List (Drive α)} {k : Nat} {w : α} (h : l[k]? = some (.host w)) (v : α) :
    l.modify k (Drive.present v) = l.set k (.host v) := by
  rw [List.modify_eq_set_getElem?, h]
  rfl

/-- Presenting a pattern on a port a wire drives leaves the port to the wire. -/
theorem modify_present_wire {α : Type} {l : List (Drive α)} {k j : Nat} (h : l[k]? = some (.wire j)) (v : α) :
    l.modify k (Drive.present v) = l := by
  obtain ⟨hk, e⟩ := List.getElem?_eq_some_iff.1 h
  rw [List.modify_eq_set_getElem?, h]
  show l.set k (.wire j) = l
  rw [← e, List.set_getElem_self]

/-- An encoder that exists answers. -/
theorem presentEnc_of_lt {s : State} {k : Nat} (h : k < s.encIn.length) (x : Sample) (r : Code) :
    presentEnc k x r s = .next ((s.driveEnc k x).record (.enc k x r)) := if_pos h

/-- A decoder that exists answers. -/
theorem presentDec_of_lt {s : State} {k : Nat} (h : k < s.decIn.length) (y : Code) (r : Sample) :
    presentDec k y r s = .next ((s.driveDec k y).record (.dec k y r)) := if_pos h

/-- Everything `presentEnc` can do when it answers a next state. -/
theorem presentEnc_next {s t : State} {k : Nat} {x : Sample} {r : Code} (h : presentEnc k x r s = .next t) :
    k < s.encIn.length ∧ t = (s.driveEnc k x).record (.enc k x r) := by
  unfold presentEnc at h
  split at h <;> simp_all

/-- Everything `presentDec` can do when it answers a next state. -/
theorem presentDec_next {s t : State} {k : Nat} {y : Code} {r : Sample} (h : presentDec k y r s = .next t) :
    k < s.decIn.length ∧ t = (s.driveDec k y).record (.dec k y r) := by
  unfold presentDec at h
  split at h <;> simp_all

/-- With nothing to present there is no word. -/
theorem fetch_nil {s : State} (h : s.pending = []) : fetch s = none := by
  simp only [fetch, h]

/-- The next word is the first of the list, and leaves it. -/
theorem fetch_cons {s : State} {p : Presented} {ps : List Presented} (h : s.pending = p :: ps) :
    fetch s = some (p, s.setPending ps) := by
  simp only [fetch, h]

/-- Everything a step can do. -/
theorem step_cases (s : State) :
    (s.pending = [] ∧ step s = .next s) ∨
    ∃ p ps, s.pending = p :: ps ∧ step s = exec (decode p) (s.setPending ps) := by
  cases h : s.pending with
  | nil => exact .inl ⟨rfl, by simp only [step, fetch_nil h, idle]⟩
  | cons p ps => exact .inr ⟨p, ps, rfl, by simp only [step, fetch_cons h]⟩

end Sys2Proof.Machine
end

