-- ==== Sys2Proof/Laws/Exec.lean ====
section
/-! SUPPORT. What an operation does, said once for both: the instance it needs, the state it answers, and that it
leaves the instances and the wires as they were. -/

namespace Sys2Proof.Machine

open Sys2Proof

/-- The state with the operand of an operation presented on its input port. -/
def State.driveBy (s : State) : Instr → State
  | .alawEnc k x => s.driveEnc k x
  | .alawDec k y => s.driveDec k y

@[simp] theorem driveBy_pending (s : State) (i : Instr) : (s.driveBy i).pending = s.pending := by cases i <;> rfl
@[simp] theorem driveBy_trace (s : State) (i : Instr) : (s.driveBy i).trace = s.trace := by cases i <;> rfl

/-- Presenting an operand keeps the number of encoders. -/
@[simp] theorem driveBy_encIn_length (s : State) (i : Instr) : (s.driveBy i).encIn.length = s.encIn.length := by
  cases i <;> simp [State.driveBy]

/-- Presenting an operand keeps the number of decoders. -/
@[simp] theorem driveBy_decIn_length (s : State) (i : Instr) : (s.driveBy i).decIn.length = s.decIn.length := by
  cases i <;> simp [State.driveBy]

/-- An operation on an instance that exists answers. -/
theorem exec_of_has {s : State} {i : Instr} (h : s.has i = true) :
    exec i s = .next ((s.driveBy i).record (Obs.ofInstr i)) := by
  cases i with
  | alawEnc k x => exact presentEnc_of_lt (of_decide_eq_true h) x (alawEncode x)
  | alawDec k y => exact presentDec_of_lt (of_decide_eq_true h) y (alawDecode y)

/-- Everything an operation can do when it answers a next state. -/
theorem exec_next {s t : State} {i : Instr} (h : exec i s = .next t) :
    s.has i = true ∧ t = (s.driveBy i).record (Obs.ofInstr i) := by
  cases i with
  | alawEnc k x => exact ⟨decide_eq_true (presentEnc_next h).1, (presentEnc_next h).2⟩
  | alawDec k y => exact ⟨decide_eq_true (presentDec_next h).1, (presentDec_next h).2⟩

/-- An operation leaves the set of instances as it was. -/
@[simp] theorem has_driveBy (s : State) (i j : Instr) : (s.driveBy i).has j = s.has j := by
  simp only [State.has, driveBy_encIn_length, driveBy_decIn_length]

/-- Presenting a pattern changes no input's wire. -/
theorem map_source_modify {α : Type} (l : List (Drive α)) (k : Nat) (v : α) :
    (l.modify k (Drive.present v)).map Drive.source = l.map Drive.source := by
  apply List.ext_getElem?
  intro n
  rw [List.getElem?_map, List.getElem?_map, List.getElem?_modify]
  cases l[n]? with
  | none => rfl
  | some d => by_cases e : k = n <;> cases d <;> simp [e, Drive.source]

end Sys2Proof.Machine
end

