-- ==== Sys2Proof/Laws/PerInstr.lean ====
section
/-! SUPPORT. Facts about every operation as syntax, one lemma per constructor. -/

namespace Sys2Proof.Laws.OperandWord

open Sys2Proof

/-- The width of the operand word of an operation, as the row of the opcode table gives it (R48). -/
def tableWidth : Instr → Nat
  | .alawEnc _ _ => 16
  | .alawDec _ _ => 8

/-- The word of an operation stands on a port as wide as its row of the table. -/
def Statement (i : Instr) : Prop := (encode i).port.width = tableWidth i

theorem alawEnc (k : Nat) (x : Sample) : Statement (.alawEnc k x) := rfl

theorem alawDec (k : Nat) (y : Code) : Statement (.alawDec k y) := rfl

end Sys2Proof.Laws.OperandWord
end

