-- ==== Sys2Proof/Laws/Ports.lean ====
section
/-! SUPPORT. Reading a port, one link of a chain of wires at a time. -/

namespace Sys2Proof.Machine

open Sys2Proof

@[simp] theorem map_value {α β : Type} (f : α → β) (v : α) : (PortValue.value v).map f = .value (f v) := rfl
@[simp] theorem map_undriven {α β : Type} (f : α → β) : (PortValue.undriven : PortValue α).map f = .undriven := rfl
@[simp] theorem map_loop {α β : Type} (f : α → β) : (PortValue.loop : PortValue α).map f = .loop := rfl

@[simp] theorem pcmIWithin_zero (s : State) (k : Nat) : pcmIWithin 0 s k = .loop := rfl
@[simp] theorem alawIWithin_zero (s : State) (k : Nat) : alawIWithin 0 s k = .loop := rfl

theorem pcmIWithin_host {s : State} {k : Nat} {x : Sample} (h : s.encIn[k]? = some (.host x)) (n : Nat) :
    pcmIWithin (n + 1) s k = .value x := by
  simp only [pcmIWithin, h]

theorem alawIWithin_host {s : State} {k : Nat} {y : Code} (h : s.decIn[k]? = some (.host y)) (n : Nat) :
    alawIWithin (n + 1) s k = .value y := by
  simp only [alawIWithin, h]

theorem pcmIWithin_wire {s : State} {k j : Nat} (h : s.encIn[k]? = some (.wire j)) (n : Nat) :
    pcmIWithin (n + 1) s k = (alawIWithin n s j).map alawDecode := by
  simp only [pcmIWithin, h]

theorem alawIWithin_wire {s : State} {k j : Nat} (h : s.decIn[k]? = some (.wire j)) (n : Nat) :
    alawIWithin (n + 1) s k = (pcmIWithin n s j).map alawEncode := by
  simp only [alawIWithin, h]

theorem pcmIWithin_absent {s : State} {k : Nat} (h : s.encIn[k]? = none) (n : Nat) :
    pcmIWithin (n + 1) s k = .undriven := by
  simp only [pcmIWithin, h]

theorem alawIWithin_absent {s : State} {k : Nat} (h : s.decIn[k]? = none) (n : Nat) :
    alawIWithin (n + 1) s k = .undriven := by
  simp only [alawIWithin, h]

end Sys2Proof.Machine
end

