-- ==== Sys2Proof/Tests/Slice0.lean ====
section
/-! SUPPORT. The model's own tests.  Expected values are the spec's: spec/95_test_vectors.md and the worked examples
of spec/40_encoder.md and spec/41_decoder.md.  After them, a witness for the hypotheses of each statement. -/

namespace Sys2Proof.Tests

open Sys2Proof Sys2Proof.Machine

/-- Two encoders and two decoders, no wires. -/
def four : State := State.resetWith 2 2

/-- `alaw_o` of `e0` wired to `alaw_i` of `d0`. -/
def chain : State := (State.resetWith 1 1).wireDec 0 0

/-- `pcm_o` of `d0` wired to `pcm_i` of `e0`. -/
def back : State := (State.resetWith 1 1).wireEnc 0 0

/-- Both wires at once. -/
def ring : State := chain.wireEnc 0 0

/-- Two encoders and two decoders, `alaw_o` of `e0` wired to `alaw_i` of `d0`. -/
def net : State := four.wireDec 0 0

/-- `four` with two words to present. -/
def loaded : State := four.setPending [.onPcmI 1 0x8000, .onAlawI 0 0x0A]

/-- The answer is a next state with this property. -/
def nextIs (o : Host.Outcome State Fault Refusal) (f : State → Bool) : Bool :=
  match o with
  | .next t => f t
  | _ => false

/-! ### Well-formedness -/

/-- An encoder that is not there is refused; the last that is there is not. -/
theorem test_wellFormed_enc :
    Instr.wellFormed 2 1 (.alawEnc 2 0) = false ∧ Instr.wellFormed 2 1 (.alawEnc 1 0) = true := by decide

/-- A decoder that is not there is refused; the last that is there is not. -/
theorem test_wellFormed_dec :
    Instr.wellFormed 2 1 (.alawDec 1 0) = false ∧ Instr.wellFormed 2 1 (.alawDec 0 0) = true := by decide

/-! ### Decoding: words written out from R41 and R42 -/

/-- R41: sign bit 1 and 31768 in bits 14 to 0 is -32768 + 31768 = -1000; the 16-bit unit is the encoder. -/
theorem test_decode_enc_word : decodeTableWord 16 0b1111110000011000 = some (.alawEnc 0 (BitVec.ofInt 16 (-1000))) := by
  decide

/-- R42, R43: S 1, SEG 101, MANT 1111, inverted by 01010101; the 8-bit unit is the decoder. -/
theorem test_decode_dec_word : decodeTableWord 8 (0b11011111 ^^^ 0b01010101) = some (.alawDec 0 0x8A) := by decide

/-- No unit takes another width, and a number with more bits than its width is no word. -/
theorem test_decode_refuses :
    decodeTableWord 24 0 = none ∧ decodeTableWord 8 256 = none ∧ decodeTableWord 16 65536 = none := by decide

/-- A word put on a port of another width is refused by name. -/
theorem test_presentWord_width : presentWord (.alawI 0) 16 0 = .error .widthMismatch := by rfl

/-! ### The operations -/

/-- Section 2 of spec/95_test_vectors.md: a vector from each position, both signs, and the clamp. -/
theorem test_enc_vectors :
    ([0, 1, -1, 17, 31, 32, 63, 64, 127, 128, 255, 256, 511, 512, 1000, -1000, 1023, 1024, 2047, 2048, 4095, 4096,
      16384, 32767, -4095, -32768] : List Sample).map alawEncode =
    [0x55, 0x55, 0xD5, 0x5D, 0x5A, 0x45, 0x4A, 0x75, 0x7A, 0x65, 0x6A, 0x15, 0x1A, 0x05, 0x0A, 0x8A, 0x0A, 0x35,
      0x3A, 0x25, 0x2A, 0x2A, 0x2A, 0x2A, 0xAA, 0xAA] := by decide

/-- Program P1, line 5: the minimum sample, with magnitude 32768. -/
theorem test_enc_step :
    nextIs (step loaded) (fun t => t.trace == [.enc 1 0x8000 0xAA] && t.pending == [.onAlawI 0 0x0A]) = true := by
  decide

/-- Section 5 of spec/95_test_vectors.md. -/
theorem test_dec_vectors :
    ([0x55, 0xD5, 0x54, 0x5A, 0x5D, 0x45, 0x4A, 0x75, 0x65, 0x15, 0x05, 0x0A, 0x8A, 0x35, 0x25, 0x2A, 0xAA, 0x00,
      0xFF, 0x80, 0x7F, 0xC5] : List Code).map (fun y => (alawDecode y).toInt) =
    [1, -1, 3, 31, 17, 33, 63, 66, 132, 264, 528, 1008, -1008, 1056, 2112, 4032, -4032, 688, -106, -688, 106,
      -33] := by decide

/-- Program P2, line 8. -/
theorem test_dec_step :
    nextIs (exec (.alawDec 1 0xFF) four) (fun t => t.trace == [.dec 1 0xFF 0xFF96]) = true := by decide

/-! ### The system -/

/-- Program P3, line 3: one encoder wired to one decoder. -/
theorem test_wired_roundtrip :
    nextIs (exec (.alawEnc 0 3000) chain) (fun t => t.pcmO 0 == .value 3008 && t.alawO 0 == .value 0x22) = true := by
  decide

/-- R51: the two spellings of the spec's example line, each with its result. -/
theorem test_text_lines :
    TextLine.agrees ⟨none, .ENC, .decimal (-1000), some (.pattern 0x8A)⟩ = true ∧
    TextLine.agrees ⟨none, .ENC, .pattern 0xFC18, some (.decimal (-118))⟩ = true ∧
    TextLine.agrees ⟨none, .ENC, .decimal 32768, none⟩ = false := by decide

/-- R52: the words the host presents for a ROUNDTRIP and a RECODE line, on separate instances and on a wired pair. -/
theorem test_program_words :
    (four.load [.roundtrip 0 0 1000, .recode 0 1 0xFF]).pending =
      [.onPcmI 0 0x03E8, .onAlawI 0 0x0A, .onAlawI 0 0xFF, .onPcmI 1 0xFF96] ∧
    (chain.load [.roundtrip 0 0 1000]).pending = [.onPcmI 0 0x03E8] := by decide

/-- Programs P3 (lines 2 and 3) and P6 (line 16): one result per line on the wired pair. -/
theorem test_program_wired_roundtrip :
    (match runProgram [.roundtrip 0 0 2121, .roundtrip 0 0 3000, .roundtrip 0 0 4096] chain with
      | .next (t, rs) => rs == [.value (.sample 2112), .value (.sample 3008), .value (.sample 4032)] &&
          t.trace.length == 3
      | _ => false) = true := by decide

/-- Program P4, lines 1 and 8: RECODE on the wired pair. -/
theorem test_program_wired_recode :
    (match runProgram [.recode 0 0 0x00, .recode 0 0 0xFF] back with
      | .next (t, rs) => rs == [.value (.code 0x00), .value (.code 0xFF)] && t.trace.length == 2
      | _ => false) = true := by decide

/-- R52, R85: the DEC of an expansion, presented to a decoder whose wire carries that code already, has its result. -/
theorem test_wired_decoder_answers :
    nextIs (exec (.alawDec 0 0x0A) chain) (fun t => t.trace == [.dec 0 0x0A 0x03F0] && t.decIn == chain.decIn) =
      true := by decide

/-- The first operation after reset runs (R96). -/
theorem test_first_step :
    nextIs (step (State.reset.withFetchWord 16 1000)) (fun t => t.trace == [.enc 0 1000 0x0A]) = true := by decide

/-! ### Witnesses: concrete inputs that meet the hypotheses of the statements -/

theorem witness_OutputsAtReset : (1 < 2 ∧ 0 < 1) ∧ four.encIn.length = 2 := by decide
theorem witness_ResetHoldsNothing : 1 < four.encIn.length ∧ 1 < four.decIn.length := by decide
theorem witness_StepRunsDecodedOperation : loaded.pending = .onPcmI 1 0x8000 :: [.onAlawI 0 0x0A] := by decide
theorem witness_IdleStepKeepsState : four.pending = [] := by decide
theorem witness_AlawEncCompletes :
    four.hostDrivesEnc 0 = true ∧ four.hostDrivesEnc 1 = true ∧ back.encIn[0]? = some (.wire 0) := by decide
theorem witness_AlawDecCompletes :
    four.hostDrivesDec 0 = true ∧ four.hostDrivesDec 1 = true ∧ chain.decIn[0]? = some (.wire 0) := by decide
theorem witness_AlawEncFrame : (∃ t, exec (.alawEnc 1 0x8000) four = .next t) ∧ (0 : Nat) ≠ 1 :=
  ⟨⟨_, rfl⟩, by decide⟩
theorem witness_AlawDecFrame : (∃ t, exec (.alawDec 1 0xFF) four = .next t) ∧ (0 : Nat) ≠ 1 := ⟨⟨_, rfl⟩, by decide⟩
theorem witness_NoOperandStopsAnOperation :
    four.has (.alawEnc 1 0x8000) = true ∧ four.has (.alawDec 1 0x00) = true ∧
    (∃ t, exec (.alawEnc 1 0x8000) four = .next t) ∧ (∃ t, exec (.alawDec 1 0x00) four = .next t) :=
  ⟨by decide, by decide, ⟨_, rfl⟩, ⟨_, rfl⟩⟩
theorem witness_StopsOnlyOnTheHostsMistake :
    four.encIn[2]? = none ∧ four.decIn[2]? = none ∧ (four.encIn[1]? ≠ none ∧ four.decIn[1]? ≠ none) := by decide
theorem witness_EncPositionIsFirstSetBit :
    (encPosition 0x07FF < 11 ∧ 11 ≤ 11) ∧ (encPosition 0 < 5 ∧ 5 ≤ 11) ∧ 4 < encPosition 32 := by decide
theorem witness_EncPositionClosedForms :
    (0#16).toNat = 0 ∧ 1 ≤ (1#16).toNat ∧ (31#16).toNat ≤ 31 ∧ 32 ≤ (32#16).toNat ∧ (4095#16).toNat ≤ 4095 := by decide
theorem witness_EncMantissaField : (4 ≤ 4 ∧ 4 ≤ 11) ∧ (4 ≤ 11 ∧ 11 ≤ 11) := by decide
theorem witness_EncComposeIsConcatenation :
    ((0x80 : Code) = 0x00 ∨ (0x80 : Code) = 0x80) ∧ ((0x00 : Code) = 0x00 ∨ (0x00 : Code) = 0x80) ∧
    (4 ≤ 4 ∧ 4 ≤ 11) ∧ (4 ≤ 11 ∧ 11 ≤ 11) ∧ (0x0F : Code).toNat < 16 := by decide
theorem witness_EncoderIntervals :
    intervalLo 0 0 ≤ clampedMag (0 : Sample).toInt ∧ clampedMag (0 : Sample).toInt ≤ intervalHi 0 0 ∧
    intervalLo 7 15 ≤ clampedMag (0x8000 : Sample).toInt ∧ clampedMag (0x8000 : Sample).toInt ≤ intervalHi 7 15 := by
  decide
theorem witness_DecMagnitudeSums :
    ((0x7F : Code).toNat < 128 ∧ (5 ≤ 5 ∧ 5 ≤ 11) ∧ (5 ≤ 11 ∧ 11 ≤ 11)) ∧
    ((0x0F : Code).toNat < 128 ∧ decPosition 0x0F = 4) ∧ (0x00 : Code).toNat < 128 ∧ decPosition 0x00 = 4 := by decide
theorem witness_DecApplySignIsExact :
    (1 ≤ (1#16).toNat ∧ (1#16).toNat ≤ 4032) ∧ (1 ≤ (4032#16).toNat ∧ (4032#16).toNat ≤ 4032) := by decide
theorem witness_DecoderValueSet :
    (0 < 8 ∧ 15 < 16 ∧ 1 < 8 ∧ 0 < 16 ∧ 16 * 0 + 15 < 16 * 1 + 0) ∧ (7 < 8 ∧ 14 < 16 ∧ 16 * 7 + 14 < 16 * 7 + 15) ∧
    16 * (⟨1, 0, 15⟩ : CodeFields).seg.toNat + (⟨1, 0, 15⟩ : CodeFields).mant.toNat <
      16 * (⟨0, 1, 0⟩ : CodeFields).seg.toNat + (⟨0, 1, 0⟩ : CodeFields).mant.toNat ∧
    alawDecode 0x55 = alawDecode 0x55 ∧ (12 ≤ 12 ∧ 12 ≤ 15) ∧ (12 ≤ 15 ∧ 15 ≤ 15) := by decide
theorem witness_OddSymmetry : 1 ≤ (1 : Sample).toInt ∧ 1 ≤ (0x7FFF : Sample).toInt := by decide
theorem witness_ClampingLaw :
    4096 ≤ (4096 : Sample).toInt ∧ 4096 ≤ (0x7FFF : Sample).toInt ∧ (0xF000 : Sample).toInt ≤ -4096 ∧
    (0x8000 : Sample).toInt ≤ -4096 := by decide
theorem witness_SignPreservation : 0 < (1 : Sample).toInt ∧ (0xFFFF : Sample).toInt < 0 := by decide
theorem witness_RecodingIsIdentity :
    (1 < four.decIn.length ∧ 1 < four.encIn.length) ∧ (0 < ring.decIn.length ∧ 0 < ring.encIn.length) ∧ alawDecode 0xD5 = alawDecode 0xD5 := by decide
theorem witness_RoundTripIdempotentMonotone : (31 : Sample).toInt ≤ (32 : Sample).toInt := by decide
theorem witness_QuantisationErrorBound :
    (-4095 ≤ (0xF001 : Sample).toInt ∧ (0xF001 : Sample).toInt < 0) ∧
    (0 ≤ (0 : Sample).toInt ∧ 0 ≤ (4095 : Sample).toInt ∧ (4095 : Sample).toInt ≤ 4095) := by decide
theorem witness_StepKeepsTraceLaw :
    loaded.traceLawful = true ∧ (∃ t, step loaded = .next t) ∧
    ({ loaded with trace := [.enc 0 1000 0x0A] } : State).traceLawful = true := ⟨by decide, ⟨_, rfl⟩, by decide⟩
theorem witness_StepKeepsNetwork : (∃ t, step loaded = .next t) ∧ ∃ t, step ring = .next t := ⟨⟨_, rfl⟩, ⟨_, rfl⟩⟩
theorem witness_SafeStepNeverStops : loaded.safe = true ∧ four.safe = true := by decide
theorem witness_RunGivesListOfResults : loaded.safe = true ∧ loaded.pending.length = 2 := by decide
theorem witness_ReorderingPermutesResults :
    loaded.safe = true ∧ [Presented.onAlawI 0 0x0A, .onPcmI 1 0x8000].Perm loaded.pending :=
  ⟨by decide, List.Perm.swap _ _ _⟩
theorem witness_HistoryHasNoEffect :
    (∃ t, exec (.alawEnc 0 5) four = .next t) ∧ (∃ t, exec (.alawEnc 0 5) loaded = .next t) ∧
    (∃ t, exec (.alawEnc 1 5) loaded = .next t) ∧ (∃ t, exec (.alawDec 0 5) four = .next t) ∧
    (∃ t, exec (.alawDec 1 5) loaded = .next t) := ⟨⟨_, rfl⟩, ⟨_, rfl⟩, ⟨_, rfl⟩, ⟨_, rfl⟩, ⟨_, rfl⟩⟩
theorem witness_DifferentInstancesCommute :
    (encode (.alawEnc 0 5)).port ≠ (encode (.alawDec 0 6)).port ∧
    ∃ t u, exec (.alawEnc 0 5) four = .next t ∧ exec (.alawDec 0 6) t = .next u :=
  ⟨by decide, _, _, rfl, rfl⟩
theorem witness_PresentingAgainChangesNothing : ∃ t, exec (.alawDec 0 6) four = .next t := ⟨_, rfl⟩
theorem witness_PortsAfterPresenting :
    ((∃ t, exec (.alawEnc 1 5) four = .next t) ∧ four.hostDrivesEnc 1 = true) ∧
    ((∃ t, exec (.alawDec 1 6) four = .next t) ∧ four.hostDrivesDec 1 = true) ∧
    ((∃ t, exec (.alawEnc 0 688) back = .next t) ∧ back.pcmI 0 = .value 688) ∧
    ((∃ t, exec (.alawDec 0 0x55) chain = .next t) ∧ chain.alawI 0 = .value 0x55) :=
  ⟨⟨⟨_, rfl⟩, by decide⟩, ⟨⟨_, rfl⟩, by decide⟩, ⟨⟨_, rfl⟩, by decide⟩, ⟨⟨_, rfl⟩, by decide⟩⟩
theorem witness_OtherOutputsUnchanged :
    (∃ t, exec (.alawEnc 1 5) four = .next t) ∧ four.source (.pcmI 0) ≠ .value (encode (.alawEnc 1 5)).port ∧
    (∃ t, exec (.alawEnc 1 5) net = .next t) ∧ net.source (.alawI 0) ≠ .value (encode (.alawEnc 1 5)).port ∧
    net.decIn[0]? = some (.wire 0) :=
  ⟨⟨_, rfl⟩, by decide, ⟨_, rfl⟩, by decide, by decide⟩
theorem witness_SourceFollowsTheWires :
    four.hostDrivesEnc 1 = true ∧ four.hostDrivesDec 1 = true ∧ back.encIn[0]? = some (.wire 0) ∧
    chain.decIn[0]? = some (.wire 0) := by decide
theorem witness_WiredPairComposes :
    (chain.decIn[0]? = some (.wire 0) ∧ chain.hostDrivesEnc 0 = true ∧
      ∃ t, exec (.alawEnc 0 5) chain = .next t) ∧
    (back.encIn[0]? = some (.wire 0) ∧ back.hostDrivesDec 0 = true ∧ ∃ t, exec (.alawDec 0 6) back = .next t) :=
  ⟨⟨by decide, by decide, ⟨_, rfl⟩⟩, ⟨by decide, by decide, ⟨_, rfl⟩⟩⟩
theorem witness_WireCarriesTheOutput :
    chain.decIn[0]? = some (.wire 0) ∧ back.encIn[0]? = some (.wire 0) ∧ ring.decIn[0]? = some (.wire 0) := by decide
theorem witness_WalkBoundSuffices : pcmIWithin 1 chain 0 ≠ .loop ∧ alawIWithin 2 chain 0 ≠ .loop := by decide
theorem witness_ClosedWiresSelectNoValue :
    ring.encIn[0]? = some (.wire 0) ∧ ring.decIn[0]? = some (.wire 0) := by decide
theorem witness_PseudoOperationsRun :
    List.all [.roundtrip 1 0 5, .op (.alawDec 1 6), .recode 0 1 7] (ProgramLine.fits four) = true ∧
    (ProgramLine.roundtrip 1 0 5).wiredIn four = false ∧ (ProgramLine.roundtrip 0 0 5).wiredIn chain = true ∧
    (ProgramLine.recode 0 0 6).wiredIn back = true := by decide
theorem witness_ProgramEndsWithItsResults :
    List.all [.roundtrip 0 0 5, .op (.alawDec 0 6)] (ProgramLine.fits chain) = true ∧
    [ProgramLine.op (.alawDec 0 6), .roundtrip 0 0 5].Perm [.roundtrip 0 0 5, .op (.alawDec 0 6)] :=
  ⟨by decide, List.Perm.swap _ _ _⟩
theorem witness_WiredProgramIsItsWords :
    ∀ l ∈ [ProgramLine.roundtrip 0 0 5, .op (.alawDec 0 6)], l.wiredIn chain = true ∨ ∃ i, l = .op i := by
  simp only [List.mem_cons, List.not_mem_nil, or_false, forall_eq_or_imp, forall_eq]
  exact ⟨.inl (by decide), .inr ⟨_, rfl⟩⟩

end Sys2Proof.Tests
end

section
/-! The two spellings of an operand (R7, R51). -/

namespace Sys2Proof.Machine

open Sys2Proof

/-- A pattern's signed reading is in the range R7 gives for its width, so the decimal spelling is accepted. -/
theorem toWord_decimal_toInt {N : Nat} (w : BitVec N) : (Spelling.decimal w.toInt).toWord N = some w := by
  have inRange : -(2 ^ (N - 1) : Int) ≤ w.toInt ∧ w.toInt < 2 ^ (N - 1) := ⟨w.le_toInt, BitVec.toInt_lt⟩
  rw [Spelling.toWord, if_pos inRange, BitVec.ofInt_toInt]

theorem toWord_pattern_toNat {N : Nat} (w : BitVec N) : (Spelling.pattern w.toNat).toWord N = some w := by
  rw [Spelling.toWord, if_pos w.isLt, BitVec.ofNat_toNat, BitVec.setWidth_eq]

/-- Settles O56: at every width, both readings of a word are in range and denote the word. -/
theorem spellingsDenoteOneWord : Obligations.SpellingsDenoteOneWord :=
  ⟨fun x => ⟨toWord_decimal_toInt x, toWord_pattern_toNat x⟩,
    fun y => ⟨toWord_decimal_toInt y, toWord_pattern_toNat y⟩⟩

end Sys2Proof.Machine
end

section
/-! The steps of the encoder as whole-number arithmetic (R55 to R61). -/

namespace Sys2Proof.Machine

open Sys2Proof

/-- R55: "bit 15 is set" and "the value is below zero" are the same test. -/
theorem encSign_eq (x : Sample) : encSign x = if x.toInt < 0 then 0x80 else 0x00 := by
  simp [encSign, isNegative, signBit, BitVec.msb_eq_toInt]

theorem encSign_eq_or (x : Sample) : encSign x = 0x00 ∨ encSign x = 0x80 := by
  rw [encSign_eq]
  split
  · exact .inr rfl
  · exact .inl rfl

/-- R62: the sign's term of the plain form. -/
theorem encSign_toNat (x : Sample) : (encSign x).toNat = 128 * (if x.toInt < 0 then 1 else 0) := by
  rw [encSign_eq]
  split <;> rfl

/-- R55, R56: read unsigned, the magnitude is the absolute value, for the minimum sample too. -/
theorem encSignMag_magnitude_toNat (x : Sample) : (encSignMag x).2.toNat = x.toInt.natAbs := by
  have magnitude_eq_abs : (encSignMag x).2 = x.abs := by
    rw [encSignMag, isNegative, BitVec.abs_eq, BitVec.neg_eq_not_add]
    rfl
  have := x.isLt
  rw [magnitude_eq_abs, BitVec.toNat_abs, BitVec.msb_eq_decide, BitVec.toInt_eq_toNat_cond]
  simp only [decide_eq_true_eq]
  split <;> split <;> omega

/-- R57: the unsigned comparison makes the clamp a minimum. -/
theorem encClamp_toNat (m : BitVec 16) : (encClamp m).toNat = min m.toNat 4095 := by
  by_cases h : alawMax < m
  · have : 4095 < m.toNat := h
    rw [encClamp, if_pos h, Nat.min_eq_right this.le]
    rfl
  · have : m.toNat ≤ 4095 := Nat.not_lt.1 h
    rw [encClamp, if_neg h, Nat.min_eq_left this]

/-- The magnitude that steps 3 and 4 of the encoder work on. -/
theorem encClamp_encSignMag_toNat (x : Sample) : (encClamp (encSignMag x).2).toNat = clampedMag x.toInt := by
  rw [encClamp_toNat, encSignMag_magnitude_toNat, clampedMag]

/-- The loop's test at position `p` asks for bit `p`. -/
theorem and_twoPow_eq_iff (m : BitVec 16) {p : Nat} (hp : p < 16) :
    m &&& BitVec.twoPow 16 p = BitVec.twoPow 16 p ↔ m.getLsbD p = true := by
  have bitOfMask : (BitVec.twoPow 16 p).getLsbD p = true := by simp [hp]
  constructor
  · intro h
    rw [← h, BitVec.getLsbD_and] at bitOfMask
    exact (Bool.and_eq_true_iff.1 bitOfMask).1
  · intro h
    rw [BitVec.and_twoPow, if_pos h]

theorem twoPow_succ_ushiftRight_one {p : Nat} (hp : p + 1 < 16) :
    BitVec.twoPow 16 (p + 1) >>> 1 = BitVec.twoPow 16 p := by
  apply BitVec.eq_of_toNat_eq
  rw [BitVec.toNat_ushiftRight, BitVec.toNat_twoPow_of_lt hp, BitVec.toNat_twoPow_of_lt (by omega)]
  rw [Nat.shiftRight_one, Nat.pow_succ, Nat.mul_div_cancel _ (by decide)]

/-- What R58 says of the position `r` at which a search from position `start` ends: the first set bit counting down,
or 4 if bits `start` to 5 are all clear. -/
structure FirstSetBit (m : BitVec 16) (start r : Nat) : Prop where
  four_le : 4 ≤ r
  le_start : r ≤ start
  clear_above : ∀ q, r < q → q ≤ start → m.getLsbD q = false
  set_at : 4 < r → m.getLsbD r = true

/-- A search that stops where it starts. -/
theorem FirstSetBit.stop {m : BitVec 16} {p : Nat} (h4 : 4 ≤ p) (set_at : 4 < p → m.getLsbD p = true) :
    FirstSetBit m p p :=
  ⟨h4, le_rfl, fun _ above below => absurd below (Nat.not_le.2 above), set_at⟩

/-- A search that passes a clear bit and goes on below it. -/
theorem FirstSetBit.again {m : BitVec 16} {p r : Nat} (clear : m.getLsbD (p + 1) = false) (h : FirstSetBit m p r) :
    FirstSetBit m (p + 1) r where
  four_le := h.four_le
  le_start := Nat.le_succ_of_le h.le_start
  clear_above q above below := by
    obtain rfl | below := Nat.eq_or_lt_of_le below
    · exact clear
    · exact h.clear_above q above (Nat.le_of_lt_succ below)
  set_at := h.set_at

theorem searchLoop_firstSetBit (m : BitVec 16) (n p : Nat) (h4 : 4 ≤ p) (hn : p ≤ n + 4) (hp : p < 16) :
    FirstSetBit m p (searchLoop n m (BitVec.twoPow 16 p) p) := by
  induction n generalizing p with
  | zero =>
    rw [searchLoop_guard (by omega)]
    exact .stop h4 (by omega)
  | succ n ih =>
    by_cases bitSet : m.getLsbD p = true
    · rw [searchLoop_found ((and_twoPow_eq_iff m hp).2 bitSet)]
      exact .stop h4 fun _ => bitSet
    by_cases atGuard : p < 5
    · rw [searchLoop_guard atGuard]
      exact .stop h4 (by omega)
    obtain ⟨p, rfl⟩ : ∃ q, p = q + 1 := ⟨p - 1, by omega⟩
    rw [searchLoop_again (mt (and_twoPow_eq_iff m hp).1 bitSet) (by omega), twoPow_succ_ushiftRight_one hp,
      Nat.add_sub_cancel]
    exact .again (Bool.eq_false_iff.2 bitSet) (ih p (by omega) (by omega) (by omega))

/-- R58: the whole search starts at bit 11 and eight tests are enough. -/
theorem encPosition_firstSetBit (m : BitVec 16) : FirstSetBit m 11 (encPosition m) :=
  searchLoop_firstSetBit m 8 11 (by decide) (by decide) (by decide)

/-- R59: a clamped magnitude is below the next power of two after its position. -/
theorem lt_two_pow_encPosition_succ {m : BitVec 16} (hm : m.toNat ≤ 4095) : m.toNat < 2 ^ (encPosition m + 1) := by
  refine Nat.lt_pow_two_of_testBit _ fun q hq => ?_
  by_cases h : q ≤ 11
  · exact (encPosition_firstSetBit m).clear_above q hq h
  · have : 2 ^ 12 ≤ 2 ^ q := Nat.pow_le_pow_right (by decide) (by omega)
    exact Nat.testBit_lt_two_pow (by omega)

theorem two_pow_encPosition_le {m : BitVec 16} (h : 4 < encPosition m) : 2 ^ encPosition m ≤ m.toNat :=
  Nat.ge_two_pow_of_testBit ((encPosition_firstSetBit m).set_at h)

/-- R60: shift and mask are quotient and remainder; at position 4 the shift is 1, not 0. -/
theorem encMantissa_toNat (m : BitVec 16) (p : Nat) :
    (encMantissa m p).toNat = m.toNat / 2 ^ (if p = 4 then 1 else p - 4) % 16 := by
  have lowNibble (k : Nat) : ((m >>> k).setWidth 8 &&& mantMask).toNat = m.toNat / 2 ^ k % 16 := by
    rw [BitVec.toNat_and, BitVec.toNat_setWidth, BitVec.toNat_ushiftRight, Nat.shiftRight_eq_div_pow]
    exact (Nat.and_two_pow_sub_one_eq_mod _ 4).trans (Nat.mod_mod_of_dvd _ (by decide))
  unfold encMantissa posMin
  split <;> exact lowNibble _

/-- R45, R61: the three terms do not overlap, so the plain form is their sum. -/
theorem encCompose_eq {sign lsb : Code} {p : Nat} (hs : sign = 0x00 ∨ sign = 0x80) (h4 : 4 ≤ p) (h11 : p ≤ 11)
    (hl : lsb.toNat < 16) :
    encCompose sign p lsb = BitVec.ofNat 8 (sign.toNat + 16 * (p - 4) + lsb.toNat) ^^^ 0x55 := by
  obtain ⟨seg, rfl⟩ : ∃ seg, p = seg + 4 := ⟨p - 4, by omega⟩
  obtain ⟨s, signTerm⟩ : ∃ s, sign.toNat = 2 ^ 7 * s := by
    obtain rfl | rfl := hs
    exacts [⟨0, rfl⟩, ⟨1, rfl⟩]
  have segTerm : (BitVec.ofNat 8 seg <<< 4).toNat = 2 ^ 4 * seg := by
    rw [BitVec.toNat_shiftLeft, BitVec.toNat_ofNat, Nat.shiftLeft_eq]
    omega
  have upperBits : 2 ^ 7 * s ||| 2 ^ 4 * seg = 2 ^ 4 * (8 * s + seg) := by
    rw [← Nat.two_pow_add_eq_or_of_lt (by omega)]
    omega
  have plainForm : sign ||| BitVec.ofNat 8 seg <<< 4 ||| lsb = BitVec.ofNat 8 (sign.toNat + 16 * seg + lsb.toNat) := by
    apply BitVec.eq_of_toNat_eq
    rw [← Nat.mod_eq_of_lt (BitVec.isLt (_ ||| lsb)), BitVec.toNat_or, BitVec.toNat_or, segTerm, signTerm, upperBits,
      ← Nat.two_pow_add_eq_or_of_lt hl, BitVec.toNat_ofNat]
    congr 1
    omega
  exact congrArg invert plainForm

end Sys2Proof.Machine
end

section
/-! The encoder's fields are those of the interval map (R59, R62). -/

namespace Sys2Proof.Machine

open Sys2Proof

/-- R59: the linear segment ends at magnitude 31. -/
theorem four_lt_encPosition_iff {m : BitVec 16} (hm : m.toNat ≤ 4095) : 4 < encPosition m ↔ 31 < m.toNat := by
  constructor
  · intro above
    calc 31 < 2 ^ 5 := by decide
      _ ≤ 2 ^ encPosition m := Nat.pow_le_pow_right (by decide) above
      _ ≤ m.toNat := two_pow_encPosition_le above
  · intro large
    by_contra notAbove
    have : m.toNat < 2 ^ 5 := (lt_two_pow_encPosition_succ hm).trans_le (Nat.pow_le_pow_right (by decide) (by omega))
    omega

theorem encPosition_eq_four_iff {m : BitVec 16} (hm : m.toNat ≤ 4095) : encPosition m = 4 ↔ m.toNat ≤ 31 := by
  have := (encPosition_firstSetBit m).four_le
  have := four_lt_encPosition_iff hm
  omega

theorem log2_eq_encPosition {m : BitVec 16} (hm : m.toNat ≤ 4095) (h : 31 < m.toNat) :
    m.toNat.log2 = encPosition m :=
  (Nat.log2_eq_iff (by omega)).2
    ⟨two_pow_encPosition_le ((four_lt_encPosition_iff hm).2 h), lt_two_pow_encPosition_succ hm⟩

/-- R62: the segment field is the position less 4. -/
theorem segOf_eq_encPosition_sub {m : BitVec 16} (hm : m.toNat ≤ 4095) : segOf m.toNat = encPosition m - 4 := by
  by_cases linear : m.toNat ≤ 31
  · rw [segOf, if_pos linear, (encPosition_eq_four_iff hm).2 linear]
  · rw [segOf, if_neg linear, log2_eq_encPosition hm (Nat.not_le.1 linear)]

/-- R60, R62: above 31, cutting the four bits below the leading one is subtracting 16 from the five. -/
theorem encMantissa_toNat_eq_mantOf {m : BitVec 16} (hm : m.toNat ≤ 4095) :
    (encMantissa m (encPosition m)).toNat = mantOf m.toNat := by
  rw [encMantissa_toNat, mantOf]
  by_cases linear : m.toNat ≤ 31
  · rw [if_pos ((encPosition_eq_four_iff hm).2 linear), if_pos linear]
    omega
  have notFour := mt (encPosition_eq_four_iff hm).1 linear
  rw [if_neg notFour, if_neg linear, log2_eq_encPosition hm (Nat.not_le.1 linear)]
  obtain ⟨k, hk⟩ := Nat.exists_eq_add_of_le' (encPosition_firstSetBit m).four_le
  have leadingBit := two_pow_encPosition_le ((four_lt_encPosition_iff hm).2 (Nat.not_le.1 linear))
  have noHigherBit := lt_two_pow_encPosition_succ hm
  rw [hk, pow_add] at leadingBit
  rw [hk, pow_succ, pow_add] at noHigherBit
  have sixteen_le : 16 ≤ m.toNat / 2 ^ k := (Nat.le_div_iff_mul_le (by positivity)).2 (by omega)
  have lt_thirtyTwo : m.toNat / 2 ^ k < 32 := (Nat.div_lt_iff_lt_mul (by positivity)).2 (by omega)
  rw [hk, Nat.add_sub_cancel]
  omega

/-- R62: the encoder's algorithm is the interval map. -/
theorem alawEncode_eq_plainOf (x : Sample) : alawEncode x = BitVec.ofNat 8 (plainOf x.toInt) ^^^ 0x55 := by
  have mag := encClamp_encSignMag_toNat x
  have clamped : (encClamp (encSignMag x).2).toNat ≤ 4095 := mag ▸ Nat.min_le_right _ _
  have position : FirstSetBit _ 11 (alawPosition x) := encPosition_firstSetBit _
  have signFlag : (encSignMag x).1 = 0x00 ∨ (encSignMag x).1 = 0x80 := encSign_eq_or x
  have signTerm : (encSignMag x).1.toNat = 128 * (if x.toInt < 0 then 1 else 0) := encSign_toNat x
  have fourBits : (encMantissa (encClamp (encSignMag x).2) (alawPosition x)).toNat < 16 := by
    rw [encMantissa_toNat]
    exact Nat.mod_lt _ (by decide)
  rw [alawEncode_eq, encCompose_eq signFlag position.four_le position.le_start fourBits, signTerm, alawPosition,
    encMantissa_toNat_eq_mantOf clamped, ← segOf_eq_encPosition_sub clamped, mag, plainOf]

end Sys2Proof.Machine
end

section
/-! The steps of the decoder as whole-number arithmetic (R64 to R70). -/

namespace Sys2Proof.Machine

open Sys2Proof

/-- R65: the sign flag is bit 7. -/
theorem decNeg_eq_getLsbD (w : Code) : decNeg w = w.getLsbD 7 := by
  have maskBit7 : w &&& signBit = if w.getLsbD 7 then signBit else 0 := BitVec.and_twoPow w 7
  rw [decNeg, maskBit7]
  cases w.getLsbD 7 <;> rfl

theorem decNeg_eq_decide (w : Code) : decNeg w = decide (128 ≤ w.toNat) := by
  rw [decNeg_eq_getLsbD]
  exact (BitVec.msb_eq_getLsbD_last w).symm.trans (BitVec.msb_eq_decide w)

/-- R65: the byte left for steps 3 and 4. -/
theorem decSign_snd_toNat (w : Code) : (decSign w).2.toNat = w.toNat % 128 := by
  show (if decNeg w then w &&& lowMask else w).toNat = _
  split
  case isTrue => exact (BitVec.toNat_and _ _).trans (Nat.and_two_pow_sub_one_eq_mod _ 7)
  case isFalse notNeg =>
    rw [decNeg_eq_decide, decide_eq_true_eq] at notNeg
    omega

/-- R66: the position as a quotient. -/
theorem decPosition_eq (w : Code) : decPosition w = w.toNat / 16 + 4 := by
  have upperNibble : ((w &&& segMask) >>> 4).toNat = w.toNat / 16 := by
    rw [BitVec.ushiftRight_and_distrib, BitVec.toNat_and, BitVec.toNat_ushiftRight, Nat.shiftRight_eq_div_pow]
    have := Nat.and_two_pow_sub_one_eq_mod (w.toNat / 2 ^ 4) 4
    exact this.trans (Nat.mod_eq_of_lt (by omega))
  rw [decPosition, upperNibble, posMin]

/-- R68: at position 4 the working value is the mantissa alone. -/
theorem decMagnitude_four_toNat {w : Code} (hw : w.toNat < 128) : (decMagnitude w 4).toNat = 2 * w.toNat + 1 := by
  have doubled : (w.setWidth 16 <<< 1).toNat = 2 ^ 1 * w.toNat := by
    rw [BitVec.toNat_shiftLeft, BitVec.toNat_setWidth, Nat.shiftLeft_eq]
    omega
  show (w.setWidth 16 <<< 1 ||| 1).toNat = _
  rw [BitVec.toNat_or, doubled]
  exact (Nat.two_pow_add_eq_or_of_lt (by decide) _).symm

/-- In `decMagnitude` the single bits of R67 are shifted as numbers and then cut to 16 bits. -/
theorem natCast_one_shiftLeft (n : Nat) : ((1 <<< n : Nat) : BitVec 16) = 1#16 <<< n := by
  apply BitVec.eq_of_toNat_eq
  rw [BitVec.toNat_shiftLeft]
  rfl

/-- R67, R71: at positions 5 to 11 the three terms do not overlap, and their common factor is `2 ^ (position - 5)`. -/
theorem decMagnitude_toNat (w : Code) {k : Nat} (hk : k ≤ 6) :
    (decMagnitude w (k + 5)).toNat = (2 * (w.toNat % 16) + 33) * 2 ^ k := by
  have factored : decMagnitude w (k + 5) = (1#16 <<< 5 ||| (w &&& mantMask).setWidth 16 <<< 1 ||| 1#16) <<< k := by
    rw [decMagnitude, posMin, if_neg (by omega), natCast_one_shiftLeft, natCast_one_shiftLeft,
      BitVec.shiftLeft_or_distrib, BitVec.shiftLeft_or_distrib, ← BitVec.shiftLeft_add, ← BitVec.shiftLeft_add,
      Nat.add_comm 5, Nat.add_comm 1]
    rfl
  have lowNibble : (w &&& mantMask).toNat = w.toNat % 16 :=
    (BitVec.toNat_and _ _).trans (Nat.and_two_pow_sub_one_eq_mod _ 4)
  have nibbleTerm : ((w &&& mantMask).setWidth 16 <<< 1).toNat = 2 ^ 1 * (w.toNat % 16) := by
    rw [BitVec.toNat_shiftLeft, BitVec.toNat_setWidth, lowNibble, Nat.shiftLeft_eq]
    omega
  have upperBits : 2 ^ 5 * 1 ||| 2 ^ 1 * (w.toNat % 16) = 2 ^ 1 * (16 + w.toNat % 16) := by
    rw [← Nat.two_pow_add_eq_or_of_lt (by omega)]
    omega
  have sum : (1#16 <<< 5 ||| (w &&& mantMask).setWidth 16 <<< 1 ||| 1#16).toNat = 2 * (w.toNat % 16) + 33 := by
    rw [BitVec.toNat_or, BitVec.toNat_or, nibbleTerm]
    show 2 ^ 5 * 1 ||| 2 ^ 1 * (w.toNat % 16) ||| 1 = _
    rw [upperBits, ← Nat.two_pow_add_eq_or_of_lt (by decide)]
    omega
  have : 2 ^ k ≤ 2 ^ 6 := Nat.pow_le_pow_right (by decide) hk
  rw [factored, BitVec.toNat_shiftLeft, sum, Nat.shiftLeft_eq, Nat.mod_eq_of_lt]
  calc _ ≤ 63 * 2 ^ 6 := Nat.mul_le_mul (by omega) this
    _ < _ := by decide

/-- R70: no magnitude of step 4 is large enough for the negation to overflow. -/
theorem decApplySign_toInt (neg : Bool) {d : BitVec 16} (hd : d.toNat < 32768) :
    (decApplySign neg d).toInt = if neg then -(d.toNat : Int) else d.toNat := by
  have reading : d.toInt = d.toNat := BitVec.toInt_eq_toNat_of_lt (by omega)
  cases neg with
  | false => exact reading
  | true =>
    have notMin : d ≠ BitVec.intMin 16 := by
      rintro rfl
      exact absurd hd (by decide)
    show (~~~d + 1#16).toInt = -(d.toNat : Int)
    rw [← BitVec.neg_eq_not_add, BitVec.toInt_neg_of_ne_intMin notMin, reading]

end Sys2Proof.Machine
end

section
/-! The decoder's value is the closed form's (R71). -/

namespace Sys2Proof.Machine

open Sys2Proof

theorem wireFields_s_eq_one_iff (y : Code) : (wireFields y).s = 1 ↔ decNeg (decUninvert y) = true := by
  have bit7 : (wireFields y).s.toNat = (invert y).toNat >>> 7 % 2 ^ 1 := BitVec.extractLsb'_toNat ..
  rw [← BitVec.toNat_inj, bit7, Nat.shiftRight_eq_div_pow, decNeg_eq_decide, decide_eq_true_eq, decUninvert]
  show _ = 1 ↔ _
  omega

theorem wireFields_seg_toNat (y : Code) : (wireFields y).seg.toNat = (invert y).toNat % 128 / 16 := by
  have : (wireFields y).seg.toNat = (invert y).toNat >>> 4 % 2 ^ 3 := BitVec.extractLsb'_toNat ..
  rw [this, Nat.shiftRight_eq_div_pow]
  omega

theorem wireFields_mant_toNat (y : Code) : (wireFields y).mant.toNat = (invert y).toNat % 16 :=
  BitVec.extractLsb'_toNat ..

/-- R71: the magnitude of step 4 is the closed form's. -/
theorem alawMagnitude_toNat (y : Code) :
    (alawMagnitude y).toNat = magnitudeOf (wireFields y).seg.toNat (wireFields y).mant.toNat := by
  have working := decSign_snd_toNat (invert y)
  have seg := wireFields_seg_toNat y
  have mant := wireFields_mant_toNat y
  have position : decPosition (decSign (invert y)).2 = (wireFields y).seg.toNat + 4 := by
    rw [decPosition_eq, working, seg]
  show (decMagnitude (decSign (invert y)).2 (decPosition (decSign (invert y)).2)).toNat = _
  rw [position]
  cases hseg : (wireFields y).seg.toNat with
  | zero =>
    rw [decMagnitude_four_toNat (by omega), magnitudeOf, if_pos rfl]
    omega
  | succ k =>
    rw [decMagnitude_toNat _ (by omega), magnitudeOf, if_neg (by omega), Nat.add_sub_cancel]
    congr 1
    omega

/-- R69: the largest magnitude is that of segment 7 and mantissa 15. -/
theorem magnitudeOf_le {seg mant : Nat} (hs : seg < 8) (hm : mant < 16) : magnitudeOf seg mant ≤ 4032 := by
  unfold magnitudeOf
  split
  · omega
  · have : 2 ^ (seg - 1) ≤ 2 ^ 6 := Nat.pow_le_pow_right (by decide) (by omega)
    exact Nat.mul_le_mul (show 2 * mant + 33 ≤ 63 by omega) this

theorem alawMagnitude_toNat_le (y : Code) : (alawMagnitude y).toNat ≤ 4032 :=
  alawMagnitude_toNat y ▸ magnitudeOf_le (wireFields y).seg.isLt (wireFields y).mant.isLt

/-- R71: the decoder's algorithm is the closed form. -/
theorem alawDecode_toInt (y : Code) : (alawDecode y).toInt = decodedValue y := by
  have noOverflow : (alawMagnitude y).toNat < 32768 := (alawMagnitude_toNat_le y).trans_lt (by decide)
  rw [alawDecode_eq, decApplySign_toInt _ noOverflow, alawMagnitude_toNat, decodedValue]
  simp only [wireFields_s_eq_one_iff]

/-- Settles O27: the encoder is the interval map and the decoder is its closed form. -/
theorem codecEqualsClosedForms : Obligations.CodecEqualsClosedForms :=
  ⟨alawEncode_eq_plainOf, alawDecode_toInt⟩

end Sys2Proof.Machine
end

section
/-! The law of the record: it holds after reset, and every step keeps it (R26, R27). -/

namespace Sys2Proof.Machine

open Sys2Proof

/-- R62, R71: the triple an operation gives is lawful because the algorithms are the closed forms. -/
theorem ofInstr_lawful (i : Instr) : (Obs.ofInstr i).lawful = true := by
  cases i with
  | alawEnc k x => exact beq_iff_eq.2 (alawEncode_eq_plainOf x)
  | alawDec k y => exact beq_iff_eq.2 (alawDecode_toInt y)

/-- One more observation keeps a record lawful exactly when it is lawful itself. -/
theorem traceLawful_record (s : State) (o : Obs) :
    (s.record o).traceLawful = (s.traceLawful && o.lawful) := by
  simp [State.traceLawful]

theorem traceLawful_driveBy (s : State) (i : Instr) : (s.driveBy i).traceLawful = s.traceLawful :=
  congrArg (List.all · Obs.lawful) (driveBy_trace s i)

theorem exec_keeps_traceLawful {i : Instr} {s t : State} (lawful : s.traceLawful = true)
    (answers : exec i s = .next t) : t.traceLawful = true := by
  obtain ⟨-, rfl⟩ := exec_next answers
  rw [traceLawful_record, traceLawful_driveBy, lawful, ofInstr_lawful, Bool.and_self]

/-- Settles O37: a step is idle or runs one operation, whose triple is lawful. -/
theorem stepKeepsTraceLaw : Obligations.StepKeepsTraceLaw := by
  intro s t lawful steps
  obtain ⟨-, idles⟩ | ⟨p, ps, -, runs⟩ := step_cases s
  · obtain rfl : s = t := Host.Outcome.next.inj (idles.symm.trans steps)
    exact lawful
  · have lawfulBefore : (s.setPending ps).traceLawful = true := lawful
    exact exec_keeps_traceLawful lawfulBefore (runs.symm.trans steps)

/-- Settles O38: the record is empty after reset. -/
theorem traceLawfulAtReset : Obligations.TraceLawfulAtReset :=
  ⟨rfl, fun _ _ => rfl⟩

end Sys2Proof.Machine
end

section
/-! The state after reset, and what an operation leaves unchanged (R19, R25, R26). -/

namespace Sys2Proof.Machine

open Sys2Proof

/-- Settles O4: the input ports are as many copies of one held pattern as the counts say. -/
theorem resetHoldsNothing : Obligations.ResetHoldsNothing :=
  ⟨rfl, fun _ _ => ⟨List.length_replicate, List.length_replicate, rfl, rfl,
    fun _ => List.getElem?_replicate_of_lt, fun _ => List.getElem?_replicate_of_lt⟩⟩

/-- Settles O11: the next state is the old one with one encoder's driver and one triple more. -/
theorem alawEncFrame : Obligations.AlawEncFrame := by
  intro k x s t answers
  obtain ⟨-, rfl⟩ := presentEnc_next (r := alawEncode x) answers
  have otherInputs (k' : Nat) (other : k' ≠ k) :
      (s.encIn.modify k (Drive.present x))[k']? = s.encIn[k']? := List.getElem?_modify_ne _ _ other.symm
  exact ⟨List.length_modify .., otherInputs, rfl, rfl, List.dropLast_concat⟩

/-- Settles O12: the next state is the old one with one decoder's driver and one triple more. -/
theorem alawDecFrame : Obligations.AlawDecFrame := by
  intro k y s t answers
  obtain ⟨-, rfl⟩ := presentDec_next (r := alawDecode y) answers
  have otherInputs (k' : Nat) (other : k' ≠ k) :
      (s.decIn.modify k (Drive.present y))[k']? = s.decIn[k']? := List.getElem?_modify_ne _ _ other.symm
  exact ⟨List.length_modify .., otherInputs, rfl, rfl, List.dropLast_concat⟩

end Sys2Proof.Machine
end

section
/-! What the ports carry after an operation (R20, R21, R95). -/

namespace Sys2Proof.Machine

open Sys2Proof

/-- R26: a walk along the wires reads nothing but the drivers of the inputs. -/
theorem within_congr {s t : State} (enc : t.encIn = s.encIn) (dec : t.decIn = s.decIn) (n : Nat) :
    pcmIWithin n t = pcmIWithin n s ∧ alawIWithin n t = alawIWithin n s := by
  induction n with
  | zero => exact ⟨rfl, rfl⟩
  | succ n ih =>
    obtain ⟨pcm, alaw⟩ := ih
    constructor <;> funext k
    · rw [pcmIWithin, pcmIWithin, enc, alaw]
    · rw [alawIWithin, alawIWithin, dec, pcm]

theorem walkBound_congr {s t : State} (enc : t.encIn = s.encIn) (dec : t.decIn = s.decIn) :
    t.walkBound = s.walkBound := by
  rw [State.walkBound, State.walkBound, enc, dec]

theorem pcmI_congr {s t : State} (enc : t.encIn = s.encIn) (dec : t.decIn = s.decIn) (k : Nat) :
    t.pcmI k = s.pcmI k := by
  rw [State.pcmI, State.pcmI, walkBound_congr enc dec, (within_congr enc dec _).1]

theorem alawI_congr {s t : State} (enc : t.encIn = s.encIn) (dec : t.decIn = s.decIn) (k : Nat) :
    t.alawI k = s.alawI k := by
  rw [State.alawI, State.alawI, walkBound_congr enc dec, (within_congr enc dec _).2]

/-- R27: no port reads the record. -/
@[simp] theorem pcmI_record (s : State) (o : Obs) (k : Nat) : (s.record o).pcmI k = s.pcmI k :=
  pcmI_congr (record_encIn s o) (record_decIn s o) k

@[simp] theorem alawI_record (s : State) (o : Obs) (k : Nat) : (s.record o).alawI k = s.alawI k :=
  alawI_congr (record_encIn s o) (record_decIn s o) k

/-- R103: an input the host drives carries what the host holds on it. -/
theorem pcmI_host {s : State} {k : Nat} {x : Sample} (h : s.encIn[k]? = some (.host x)) : s.pcmI k = .value x :=
  pcmIWithin_host h _

theorem alawI_host {s : State} {k : Nat} {y : Code} (h : s.decIn[k]? = some (.host y)) : s.alawI k = .value y :=
  alawIWithin_host h _

/-- Where the port is the wire's, presenting changes no driver, so the port carries the operand only if it did. -/
theorem pcmI_driveEnc {s : State} {k : Nat} {x : Sample} (present : k < s.encIn.length)
    (carries : s.hostDrivesEnc k = true ∨ s.pcmI k = .value x) : (s.driveEnc k x).pcmI k = .value x := by
  obtain ⟨driver, hd⟩ : ∃ driver, s.encIn[k]? = some driver := ⟨_, List.getElem?_eq_getElem present⟩
  cases driver with
  | host v =>
    apply pcmI_host
    rw [driveEnc_encIn, List.getElem?_modify_eq, hd]
    rfl
  | wire j =>
    have notHost : ¬ s.hostDrivesEnc k = true := by simp [hostDrivesEnc_iff, hd]
    rw [← carries.resolve_left notHost]
    exact pcmI_congr (s := s) (t := s.driveEnc k x) (modify_present_wire hd x) rfl k

theorem alawI_driveDec {s : State} {k : Nat} {y : Code} (present : k < s.decIn.length)
    (carries : s.hostDrivesDec k = true ∨ s.alawI k = .value y) : (s.driveDec k y).alawI k = .value y := by
  obtain ⟨driver, hd⟩ : ∃ driver, s.decIn[k]? = some driver := ⟨_, List.getElem?_eq_getElem present⟩
  cases driver with
  | host v =>
    apply alawI_host
    rw [driveDec_decIn, List.getElem?_modify_eq, hd]
    rfl
  | wire j =>
    have notHost : ¬ s.hostDrivesDec k = true := by simp [hostDrivesDec_iff, hd]
    rw [← carries.resolve_left notHost]
    exact alawI_congr (s := s) (t := s.driveDec k y) rfl (modify_present_wire hd y) k

/-- Settles O46: recording changes no port, and an output port is the unit's function of its input port. -/
theorem portsAfterPresenting : Obligations.PortsAfterPresenting := by
  constructor
  · intro k x s t answers carries
    obtain ⟨present, rfl⟩ := presentEnc_next (r := alawEncode x) answers
    have input := pcmI_driveEnc present carries
    exact ⟨by rw [pcmI_record, input], by rw [State.alawO, pcmI_record, input, map_value]⟩
  · intro k y s t answers carries
    obtain ⟨present, rfl⟩ := presentDec_next (r := alawDecode y) answers
    have input := alawI_driveDec present carries
    exact ⟨by rw [alawI_record, input], by rw [State.pcmO, alawI_record, input, map_value]⟩

end Sys2Proof.Machine
end

section
/-! A code and its three fields determine each other (R42, R43, R46). -/

namespace Sys2Proof.Machine

open Sys2Proof

theorem plainFields_assemble (f : CodeFields) : plainFields (assemble f) = f := by
  have signField : (assemble f).extractLsb' 7 1 = f.s := by
    rw [assemble, BitVec.extractLsb'_append_eq_of_le (by decide)]
    exact BitVec.extractLsb'_append_eq_left
  have segField : (assemble f).extractLsb' 4 3 = f.seg := by
    rw [assemble, BitVec.extractLsb'_append_eq_of_le (by decide)]
    exact BitVec.extractLsb'_append_eq_right
  have mantField : (assemble f).extractLsb' 0 4 = f.mant := BitVec.extractLsb'_append_eq_right
  rw [plainFields, signField, segField, mantField]

theorem assemble_plainFields (p : Code) : assemble (plainFields p) = p := by
  have upperBits : p.extractLsb' 7 1 ++ p.extractLsb' 4 3 = p.extractLsb' 4 4 :=
    BitVec.extractLsb'_append_extractLsb'_eq_extractLsb' rfl
  rw [assemble, plainFields, upperBits]
  exact BitVec.extractLsb'_append_extractLsb'

@[simp] theorem wireFields_wireOf (f : CodeFields) : wireFields (wireOf f) = f := by
  rw [wireFields, wireOf, invert_invert, plainFields_assemble]

@[simp] theorem wireOf_wireFields (c : Code) : wireOf (wireFields c) = c := by
  rw [wireOf, wireFields, assemble_plainFields, invert_invert]

end Sys2Proof.Machine
end

section
/-! The magnitudes of the closed form: their place in the encoder's intervals and their order (R71, R72). -/

namespace Sys2Proof.Machine

open Sys2Proof

theorem magnitudeOf_zero (mant : Nat) : magnitudeOf 0 mant = 2 * mant + 1 := rfl

theorem magnitudeOf_succ (k mant : Nat) : magnitudeOf (k + 1) mant = (2 * mant + 33) * 2 ^ k := rfl

theorem intervalHi_zero (mant : Nat) : intervalHi 0 mant = 2 * mant + 1 := rfl

theorem intervalHi_succ (k mant : Nat) : intervalHi (k + 1) mant = intervalLo (k + 1) mant + 2 ^ (k + 1) - 1 := rfl

/-- R71: from segment 1 on the decoder answers the middle of the encoder's interval. -/
theorem magnitudeOf_succ_eq_intervalLo_add (k mant : Nat) :
    magnitudeOf (k + 1) mant = intervalLo (k + 1) mant + 2 ^ k := by
  rw [magnitudeOf_succ, intervalLo, if_neg k.succ_ne_zero]
  ring

theorem magnitudeOf_eq_intervalHi {seg : Nat} (linear : seg = 0) (mant : Nat) :
    magnitudeOf seg mant = intervalHi seg mant := by
  rw [linear, magnitudeOf_zero, intervalHi_zero]

theorem magnitudeOf_eq_intervalLo_add {seg : Nat} (above : seg ≠ 0) (mant : Nat) :
    magnitudeOf seg mant = intervalLo seg mant + 2 ^ (seg - 1) := by
  obtain ⟨k, rfl⟩ := Nat.exists_eq_succ_of_ne_zero above
  exact magnitudeOf_succ_eq_intervalLo_add k mant

theorem intervalLo_le_magnitudeOf (seg mant : Nat) : intervalLo seg mant ≤ magnitudeOf seg mant := by
  cases seg with
  | zero => exact Nat.le_succ (2 * mant)
  | succ k => exact magnitudeOf_succ_eq_intervalLo_add k mant ▸ Nat.le_add_right _ _

theorem magnitudeOf_le_intervalHi (seg mant : Nat) : magnitudeOf seg mant ≤ intervalHi seg mant := by
  cases seg with
  | zero => exact (magnitudeOf_eq_intervalHi rfl mant).le
  | succ k =>
    have : 0 < 2 ^ k := by positivity
    rw [magnitudeOf_succ_eq_intervalLo_add, intervalHi_succ, pow_succ]
    omega

theorem magnitudeOf_pos (seg mant : Nat) : 0 < magnitudeOf seg mant := by
  cases seg with
  | zero => exact Nat.succ_pos (2 * mant)
  | succ k => exact Nat.mul_pos (Nat.succ_pos _) (by positivity)

theorem magnitudeOf_lt_two_pow (seg : Nat) {mant : Nat} (hm : mant < 16) : magnitudeOf seg mant < 2 ^ (seg + 5) := by
  cases seg with
  | zero =>
    rw [magnitudeOf_zero]
    omega
  | succ k =>
    calc (2 * mant + 33) * 2 ^ k < 64 * 2 ^ k := Nat.mul_lt_mul_of_pos_right (by omega) (by positivity)
      _ = 2 ^ (k + 1 + 5) := by ring

theorem two_pow_le_magnitudeOf {seg : Nat} (above : seg ≠ 0) (mant : Nat) : 2 ^ (seg + 4) ≤ magnitudeOf seg mant := by
  obtain ⟨k, rfl⟩ := Nat.exists_eq_succ_of_ne_zero above
  calc 2 ^ (k + 1 + 4) = 32 * 2 ^ k := by ring
    _ ≤ (2 * mant + 33) * 2 ^ k := Nat.mul_le_mul_right _ (by omega)

theorem magnitudeOf_lt_of_mant_lt (seg : Nat) {mant mant' : Nat} (h : mant < mant') :
    magnitudeOf seg mant < magnitudeOf seg mant' := by
  cases seg with
  | zero =>
    rw [magnitudeOf_zero, magnitudeOf_zero]
    omega
  | succ k => exact Nat.mul_lt_mul_of_pos_right (by omega) (by positivity)

/-- R72: in one segment the mantissa orders the magnitudes; a power of two lies between any two segments. -/
theorem magnitudeOf_lt {seg mant seg' mant' : Nat} (hm : mant < 16) (hm' : mant' < 16)
    (h : 16 * seg + mant < 16 * seg' + mant') : magnitudeOf seg mant < magnitudeOf seg' mant' := by
  obtain rfl | segLt : seg = seg' ∨ seg < seg' := by omega
  · exact magnitudeOf_lt_of_mant_lt seg (by omega)
  · calc magnitudeOf seg mant < 2 ^ (seg + 5) := magnitudeOf_lt_two_pow seg hm
      _ ≤ 2 ^ (seg' + 4) := Nat.pow_le_pow_right (by decide) (by omega)
      _ ≤ magnitudeOf seg' mant' := two_pow_le_magnitudeOf (by omega) mant'

theorem fields_eq_of_magnitudeOf_eq {seg mant seg' mant' : Nat} (hm : mant < 16) (hm' : mant' < 16)
    (h : magnitudeOf seg mant = magnitudeOf seg' mant') : seg = seg' ∧ mant = mant' := by
  have notBelow : ¬ 16 * seg + mant < 16 * seg' + mant' := fun lt => (magnitudeOf_lt hm hm' lt).ne h
  have notAbove : ¬ 16 * seg' + mant' < 16 * seg + mant := fun lt => (magnitudeOf_lt hm' hm lt).ne' h
  omega

end Sys2Proof.Machine
end

section
/-! The values the decoder can answer: distinct, and 13 bits wide (R21, R71, R72). -/

namespace Sys2Proof.Machine

open Sys2Proof

theorem alawMagnitude_wireOf_toNat (f : CodeFields) :
    (alawMagnitude (wireOf f)).toNat = magnitudeOf f.seg.toNat f.mant.toNat := by
  rw [alawMagnitude_toNat, wireFields_wireOf]

theorem alawMagnitude_toNat_pos (y : Code) : 0 < (alawMagnitude y).toNat :=
  alawMagnitude_toNat y ▸ magnitudeOf_pos _ _

theorem decodedValue_eq (y : Code) :
    decodedValue y = if (wireFields y).s = 1 then -(magnitudeOf (wireFields y).seg.toNat (wireFields y).mant.toNat : Int)
      else magnitudeOf (wireFields y).seg.toNat (wireFields y).mant.toNat := rfl

/-- R71: the sign field is the sign of the value, which is never 0. -/
theorem decodedValue_neg_iff (y : Code) : decodedValue y < 0 ↔ (wireFields y).s = 1 := by
  have := magnitudeOf_pos (wireFields y).seg.toNat (wireFields y).mant.toNat
  rw [decodedValue_eq]
  split
  case isTrue negative => exact iff_of_true (by omega) negative
  case isFalse notNegative => exact iff_of_false (by omega) notNegative

theorem decodedValue_natAbs (y : Code) :
    (decodedValue y).natAbs = magnitudeOf (wireFields y).seg.toNat (wireFields y).mant.toNat := by
  rw [decodedValue_eq]
  split
  case isTrue => rw [Int.natAbs_neg, Int.natAbs_natCast]
  case isFalse => rw [Int.natAbs_natCast]

theorem codeFields_ext {f g : CodeFields} (sign : f.s = 1 ↔ g.s = 1) (seg : f.seg.toNat = g.seg.toNat)
    (mant : f.mant.toNat = g.mant.toNat) : f = g := by
  obtain ⟨s, _, _⟩ := f
  obtain ⟨s', _, _⟩ := g
  have oneBit : s = s' := by bv_omega
  exact CodeFields.mk.injEq .. ▸ ⟨oneBit, BitVec.eq_of_toNat_eq seg, BitVec.eq_of_toNat_eq mant⟩

/-- R72: the value determines the sign and, by its magnitude, the other two fields. -/
theorem decodedValue_injective : Function.Injective decodedValue := by
  intro y y' h
  have sign : (wireFields y).s = 1 ↔ (wireFields y').s = 1 := by
    rw [← decodedValue_neg_iff, h, decodedValue_neg_iff]
  have magnitude := congrArg Int.natAbs h
  rw [decodedValue_natAbs, decodedValue_natAbs] at magnitude
  obtain ⟨seg, mant⟩ := fields_eq_of_magnitudeOf_eq (wireFields y).mant.isLt (wireFields y').mant.isLt magnitude
  rw [← wireOf_wireFields y, codeFields_ext sign seg mant, wireOf_wireFields]

theorem alawDecode_injective : Function.Injective alawDecode := by
  intro y y' h
  apply decodedValue_injective
  rw [← alawDecode_toInt, h, alawDecode_toInt]

/-- Negation is the complement of the predecessor, and neither magnitude nor predecessor reaches bit `n`. -/
theorem getLsbD_decApplySign (neg : Bool) {d : BitVec 16} {n b : Nat} (hpos : 0 < d.toNat) (hd : d.toNat < 2 ^ n)
    (hn : n ≤ b) (hb : b < 16) : (decApplySign neg d).getLsbD b = neg := by
  have small {v : BitVec 16} (hv : v.toNat < 2 ^ n) : v.getLsbD b = false :=
    Nat.testBit_lt_two_pow (hv.trans_le (Nat.pow_le_pow_right (by decide) hn))
  cases neg with
  | false => exact small hd
  | true =>
    show (~~~d + 1#16).getLsbD b = true
    have pred : (d - 1#16).toNat = d.toNat - 1 := BitVec.toNat_sub_of_le hpos
    have complement : (~~~(~~~d + 1#16)).getLsbD b = false := by
      rw [← BitVec.neg_eq_not_add, BitVec.not_neg]
      exact small (by omega)
    simpa [hb] using complement

/-- R43: the inversion leaves the sign bit. -/
theorem invert_getLsbD_seven (y : Code) : (invert y).getLsbD 7 = y.getLsbD 7 := by
  simp [invert, inv]

/-- R21: a result has 13 bits, the others being copies of its sign. -/
theorem alawDecode_getLsbD_of_twelve_le (y : Code) {b : Nat} (h12 : 12 ≤ b) (h15 : b ≤ 15) :
    (alawDecode y).getLsbD b = y.getLsbD 7 := by
  have thirteenBits : (alawMagnitude y).toNat < 2 ^ 12 := (alawMagnitude_toNat_le y).trans_lt (by decide)
  rw [alawDecode_eq, getLsbD_decApplySign _ (alawMagnitude_toNat_pos y) thirteenBits h12 (by omega),
    decNeg_eq_getLsbD, decUninvert, invert_getLsbD_seven]

/-- Settles O26: the decoder's magnitude is the closed form's, whose order and place in the intervals are known. -/
theorem decoderValueSet : Obligations.DecoderValueSet := by
  refine ⟨?order, ?interval, ?ownOrder, ?ownInterval, ?oneToOne, ?thirteenBits⟩
  case order => exact fun seg mant seg' mant' _ hm _ hm' lt => magnitudeOf_lt hm hm' lt
  case interval =>
    exact fun seg mant _ _ => ⟨magnitudeOf_le_intervalHi seg mant,
      fun linear => magnitudeOf_eq_intervalHi linear mant,
      fun above => magnitudeOf_eq_intervalLo_add (Nat.one_le_iff_ne_zero.1 above) mant⟩
  case ownOrder =>
    intro f g lt
    rw [alawMagnitude_wireOf_toNat, alawMagnitude_wireOf_toNat]
    exact magnitudeOf_lt f.mant.isLt g.mant.isLt lt
  case ownInterval =>
    intro f
    have segZero : f.seg = 0 ↔ f.seg.toNat = 0 := BitVec.toNat_inj.symm
    rw [alawMagnitude_wireOf_toNat, ne_eq, segZero]
    exact ⟨intervalLo_le_magnitudeOf _ _, magnitudeOf_le_intervalHi _ _,
      fun linear => magnitudeOf_eq_intervalHi linear _, fun above => magnitudeOf_eq_intervalLo_add above _⟩
  case oneToOne => exact fun y y' same => alawDecode_injective same
  case thirteenBits => exact fun y b h12 h15 => alawDecode_getLsbD_of_twelve_le y h12 h15

end Sys2Proof.Machine
end

section
/-! One step and the run of a list of words (R33, R34, R102). -/

namespace Sys2Proof.Machine

open Sys2Proof

theorem step_nil {s : State} (h : s.pending = []) : step s = .next s := by
  simp only [step, fetch_nil h, idle]

theorem step_cons {s : State} {p : Presented} {ps : List Presented} (h : s.pending = p :: ps) :
    step s = exec (decode p) (s.setPending ps) := by
  simp only [step, fetch_cons h]

/-- Settles O6: taking the next word leaves it out of the words to come and changes nothing else. -/
theorem stepRunsDecodedOperation : Obligations.StepRunsDecodedOperation :=
  fun _ _ _ next => step_cons next

/-- Settles O7: with no word to fetch the step is the idle one. -/
theorem idleStepKeepsState : Obligations.IdleStepKeepsState :=
  fun _ none => step_nil none

theorem sameNetwork_iff (s t : State) :
    s.sameNetwork t = true ↔
      s.encIn.map Drive.source = t.encIn.map Drive.source ∧ s.decIn.map Drive.source = t.decIn.map Drive.source := by
  rw [State.sameNetwork, Bool.and_eq_true, beq_iff_eq, beq_iff_eq]

theorem sameNetwork_refl (s : State) : s.sameNetwork s = true :=
  (sameNetwork_iff s s).2 ⟨rfl, rfl⟩

theorem sameNetwork_trans {s t u : State} (st : s.sameNetwork t = true) (tu : t.sameNetwork u = true) :
    s.sameNetwork u = true := by
  rw [sameNetwork_iff] at st tu ⊢
  exact ⟨st.1.trans tu.1, st.2.trans tu.2⟩

theorem sameNetwork_driveBy (s : State) (i : Instr) : s.sameNetwork (s.driveBy i) = true := by
  rw [sameNetwork_iff]
  cases i with
  | alawEnc k x => exact ⟨(map_source_modify s.encIn k x).symm, rfl⟩
  | alawDec k y => exact ⟨rfl, (map_source_modify s.decIn k y).symm⟩

/-- R34, R102: what a step does with the next word of a safe run. -/
theorem step_of_safe {s : State} {p : Presented} {ps : List Presented} (safe : s.safe = true)
    (next : s.pending = p :: ps) :
    ∃ t : State, step s = .next t ∧ t.safe = true ∧ t.pending = ps ∧ s.sameNetwork t = true ∧
      t.trace = s.trace ++ [Obs.ofInstr (decode p)] := by
  rw [State.safe, next, List.all_cons, Bool.and_eq_true] at safe
  obtain ⟨present, restPresent⟩ := safe
  refine ⟨((s.setPending ps).driveBy (decode p)).record (Obs.ofInstr (decode p)), ?steps, ?safe, ?pending, ?network,
    ?trace⟩
  case steps => exact (step_cons next).trans (exec_of_has present)
  case safe =>
    have sameInstances (i : Instr) : ((s.setPending ps).driveBy (decode p)).has i = s.has i := has_driveBy _ _ i
    simpa [State.safe, State.has, sameInstances] using restPresent
  case pending => rw [record_pending, driveBy_pending, setPending_pending]
  case network => exact sameNetwork_driveBy (s.setPending ps) (decode p)
  case trace => rw [record_trace, driveBy_trace, setPending_trace]

theorem run_succ_of_step {s t : State} (steps : step s = .next t) (n : Nat) :
    Host.Core.run core (n + 1) s = Host.Core.run core n t := by
  have coreSteps : core.step s = .next t := steps
  simp only [Host.Core.run, coreSteps]

/-- Settles O41: induction over the words still to come, one step for each. -/
theorem runGivesListOfResults : Obligations.RunGivesListOfResults := by
  intro s safe
  induction words : s.pending generalizing s with
  | nil => exact ⟨s, rfl, words, sameNetwork_refl s, (List.append_nil _).symm⟩
  | cons p ps ih =>
    obtain ⟨t, steps, tSafe, tPending, stNetwork, tTrace⟩ := step_of_safe safe words
    obtain ⟨u, runs, uPending, tuNetwork, uTrace⟩ := ih t tSafe tPending
    refine ⟨u, ?_, uPending, sameNetwork_trans stNetwork tuNetwork, ?_⟩
    · rw [List.length_cons, run_succ_of_step steps, runs]
    · rw [uTrace, tTrace, List.append_assoc, List.map_cons, List.singleton_append]

/-- Settles O42: both orders are safe runs, whose records gain the images of the two lists of words. -/
theorem reorderingPermutesResults : Obligations.ReorderingPermutesResults := by
  intro s ps safe perm
  have reorderedSafe : (s.setPending ps).safe = true := perm.all_eq.trans safe
  obtain ⟨t, tRuns, -, -, tTrace⟩ := runGivesListOfResults s safe
  obtain ⟨u, uRuns, -, -, uTrace⟩ := runGivesListOfResults (s.setPending ps) reorderedSafe
  exact ⟨t, u, _, _, tRuns, uRuns, tTrace, uTrace, (perm.map _).symm⟩

end Sys2Proof.Machine
end

section
/-! One operation after another: history, order and repetition (R32, R33, R35). -/

namespace Sys2Proof.Machine

open Sys2Proof

theorem exec_trace {i : Instr} {s t : State} (answers : exec i s = .next t) :
    t.trace = s.trace ++ [Obs.ofInstr i] := by
  obtain ⟨-, rfl⟩ := exec_next answers
  rw [record_trace, driveBy_trace]

/-- Settles O43: the triple is made from the operation alone, and its result from the operand alone. -/
theorem historyHasNoEffect : Obligations.HistoryHasNoEffect :=
  ⟨fun i _ _ _ _ answers answers' => ⟨Obs.ofInstr i, exec_trace answers, exec_trace answers'⟩,
    fun _ _ x _ _ _ _ answers answers' => ⟨alawEncode x, exec_trace answers, exec_trace answers'⟩,
    fun _ _ y _ _ _ _ answers answers' => ⟨alawDecode y, exec_trace answers, exec_trace answers'⟩⟩

theorem driveBy_record (s : State) (o : Obs) (i : Instr) : (s.record o).driveBy i = (s.driveBy i).record o := by
  cases i <;> rfl

/-- R35: operands on different ports may be presented in either order. -/
theorem driveBy_comm {i j : Instr} (s : State) (different : (encode i).port ≠ (encode j).port) :
    (s.driveBy i).driveBy j = (s.driveBy j).driveBy i := by
  cases i with
  | alawEnc k x =>
    cases j with
    | alawEnc k' x' =>
      have ports : k ≠ k' := fun same => different (congrArg Port.pcmI same)
      simp only [State.driveBy, State.driveEnc, List.modify_modify_ne _ _ _ ports]
    | alawDec k' y' => rfl
  | alawDec k y =>
    cases j with
    | alawEnc k' x' => rfl
    | alawDec k' y' =>
      have ports : k ≠ k' := fun same => different (congrArg Port.alawI same)
      simp only [State.driveBy, State.driveDec, List.modify_modify_ne _ _ _ ports]

theorem present_present {α : Type} (v : α) : Drive.present v ∘ Drive.present v = Drive.present v := by
  funext d
  cases d <;> rfl

/-- R32: a port that was presented an operand is as it would be presented it again. -/
theorem driveBy_driveBy_self (s : State) (i : Instr) : (s.driveBy i).driveBy i = s.driveBy i := by
  cases i <;>
    simp only [State.driveBy, State.driveEnc, State.driveDec, List.modify_modify_eq, present_present]

/-- Settles O44: the two presentations commute, and the records differ by exchanging the last two triples. -/
theorem differentInstancesCommute : Obligations.DifferentInstancesCommute := by
  intro i j s t u different answersI answersJ
  obtain ⟨hasI, rfl⟩ := exec_next answersI
  obtain ⟨hasJ, rfl⟩ := exec_next answersJ
  have sHasJ : s.has j = true := (has_driveBy s i j).symm.trans hasJ
  have tHasI : ((s.driveBy j).record (Obs.ofInstr j)).has i = true := (has_driveBy s j i).trans hasI
  refine ⟨_, _, exec_of_has sHasJ, exec_of_has tHasI, ?_⟩
  rw [driveBy_record, driveBy_record, driveBy_comm s different]
  refine ⟨rfl, rfl, rfl, ?_⟩
  simp only [record_trace, driveBy_trace, List.append_assoc]
  exact (List.Perm.swap _ _ _).append_left _

/-- Settles O45: the second presentation finds the port as the first one left it. -/
theorem presentingAgainChangesNothing : Obligations.PresentingAgainChangesNothing := by
  intro i s t answers
  obtain ⟨present, rfl⟩ := exec_next answers
  have again : ((s.driveBy i).record (Obs.ofInstr i)).has i = true := (has_driveBy s i i).trans present
  have unchanged : ((s.driveBy i).record (Obs.ofInstr i)).driveBy i = (s.driveBy i).record (Obs.ofInstr i) := by
    rw [driveBy_record, driveBy_driveBy_self]
  refine ⟨_, Obs.ofInstr i, exec_of_has again, ?_⟩
  rw [unchanged]
  exact ⟨rfl, rfl, rfl, exec_trace answers, rfl⟩

end Sys2Proof.Machine
end

section
/-! What can drive an input, and where its walk goes from there, one link at a time (R35). -/

namespace Sys2Proof.Machine

open Sys2Proof

theorem driver_cases {α : Type} (l : List (Drive α)) (k : Nat) :
    l[k]? = none ∨ (∃ v, l[k]? = some (.host v)) ∨ ∃ j, l[k]? = some (.wire j) := by
  cases l[k]? with
  | none => exact .inl rfl
  | some d =>
    cases d with
    | host v => exact .inr (.inl ⟨v, rfl⟩)
    | wire j => exact .inr (.inr ⟨j, rfl⟩)

theorem pcmISourceWithin_host {s : State} {k : Nat} {x : Sample} (h : s.encIn[k]? = some (.host x)) (n : Nat) :
    pcmISourceWithin (n + 1) s k = .value (.pcmI k) := by
  simp only [pcmISourceWithin, h]

theorem alawISourceWithin_host {s : State} {k : Nat} {y : Code} (h : s.decIn[k]? = some (.host y)) (n : Nat) :
    alawISourceWithin (n + 1) s k = .value (.alawI k) := by
  simp only [alawISourceWithin, h]

theorem pcmISourceWithin_wire {s : State} {k j : Nat} (h : s.encIn[k]? = some (.wire j)) (n : Nat) :
    pcmISourceWithin (n + 1) s k = alawISourceWithin n s j := by
  simp only [pcmISourceWithin, h]

theorem alawISourceWithin_wire {s : State} {k j : Nat} (h : s.decIn[k]? = some (.wire j)) (n : Nat) :
    alawISourceWithin (n + 1) s k = pcmISourceWithin n s j := by
  simp only [alawISourceWithin, h]

theorem pcmISourceWithin_absent {s : State} {k : Nat} (h : s.encIn[k]? = none) (n : Nat) :
    pcmISourceWithin (n + 1) s k = .undriven := by
  simp only [pcmISourceWithin, h]

theorem alawISourceWithin_absent {s : State} {k : Nat} (h : s.decIn[k]? = none) (n : Nat) :
    alawISourceWithin (n + 1) s k = .undriven := by
  simp only [alawISourceWithin, h]

end Sys2Proof.Machine
end

section
/-! What an operation leaves at the ports it does not feed (R33, R35). -/

namespace Sys2Proof.Machine

open Sys2Proof

theorem getElem?_modify_present {α : Type} {l : List (Drive α)} {k k' : Nat} (v : α)
    (other : ∀ w, l[k]? = some (.host w) → k' ≠ k) : (l.modify k' (Drive.present v))[k]? = l[k]? := by
  obtain absent | ⟨w, host⟩ | ⟨j, wire⟩ := driver_cases l k
  · rw [List.getElem?_modify, absent, Option.map_eq_map, Option.map_none]
  · exact List.getElem?_modify_ne _ _ (other w host)
  · rw [List.getElem?_modify, wire, Option.map_eq_map, Option.map_some, present_wire, ite_self]

/-- Only a port that the host drives and that is the one presented changes its driver. -/
theorem driveBy_encIn_getElem? {s : State} {i : Instr} {k : Nat}
    (other : ∀ x, s.encIn[k]? = some (.host x) → (encode i).port ≠ .pcmI k) :
    (s.driveBy i).encIn[k]? = s.encIn[k]? := by
  cases i with
  | alawEnc k' x => exact getElem?_modify_present x fun w host same => other w host (congrArg Port.pcmI same)
  | alawDec k' y => rfl

theorem driveBy_decIn_getElem? {s : State} {i : Instr} {k : Nat}
    (other : ∀ y, s.decIn[k]? = some (.host y) → (encode i).port ≠ .alawI k) :
    (s.driveBy i).decIn[k]? = s.decIn[k]? := by
  cases i with
  | alawEnc k' x => rfl
  | alawDec k' y => exact getElem?_modify_present y fun w host same => other w host (congrArg Port.alawI same)

/-- R33, R35: a walk that does not end at the port presented meets the same drivers as before. -/
theorem within_driveBy (s : State) (i : Instr) (n : Nat) :
    (∀ k, pcmISourceWithin n s k ≠ .value (encode i).port →
      pcmIWithin n (s.driveBy i) k = pcmIWithin n s k) ∧
    (∀ k, alawISourceWithin n s k ≠ .value (encode i).port →
      alawIWithin n (s.driveBy i) k = alawIWithin n s k) := by
  induction n with
  | zero => exact ⟨fun _ _ => rfl, fun _ _ => rfl⟩
  | succ n ih =>
    obtain ⟨pcmIh, alawIh⟩ := ih
    constructor <;> intro k notFed
    · have sameDriver : (s.driveBy i).encIn[k]? = s.encIn[k]? := driveBy_encIn_getElem? fun x host same =>
        notFed (same ▸ pcmISourceWithin_host host n)
      obtain absent | ⟨x, host⟩ | ⟨j, wire⟩ := driver_cases s.encIn k
      · rw [pcmIWithin_absent (sameDriver.trans absent), pcmIWithin_absent absent]
      · rw [pcmIWithin_host (sameDriver.trans host), pcmIWithin_host host]
      · rw [pcmISourceWithin_wire wire] at notFed
        rw [pcmIWithin_wire (sameDriver.trans wire), pcmIWithin_wire wire, alawIh j notFed]
    · have sameDriver : (s.driveBy i).decIn[k]? = s.decIn[k]? := driveBy_decIn_getElem? fun y host same =>
        notFed (same ▸ alawISourceWithin_host host n)
      obtain absent | ⟨y, host⟩ | ⟨j, wire⟩ := driver_cases s.decIn k
      · rw [alawIWithin_absent (sameDriver.trans absent), alawIWithin_absent absent]
      · rw [alawIWithin_host (sameDriver.trans host), alawIWithin_host host]
      · rw [alawISourceWithin_wire wire] at notFed
        rw [alawIWithin_wire (sameDriver.trans wire), alawIWithin_wire wire, pcmIh j notFed]

@[simp] theorem walkBound_driveBy (s : State) (i : Instr) : (s.driveBy i).walkBound = s.walkBound := by
  rw [State.walkBound, State.walkBound, driveBy_encIn_length, driveBy_decIn_length]

theorem pcmI_driveBy {s : State} {i : Instr} {k : Nat} (notFed : s.source (.pcmI k) ≠ .value (encode i).port) :
    (s.driveBy i).pcmI k = s.pcmI k := by
  rw [State.pcmI, walkBound_driveBy, (within_driveBy s i _).1 k notFed, State.pcmI]

theorem alawI_driveBy {s : State} {i : Instr} {k : Nat} (notFed : s.source (.alawI k) ≠ .value (encode i).port) :
    (s.driveBy i).alawI k = s.alawI k := by
  rw [State.alawI, walkBound_driveBy, (within_driveBy s i _).2 k notFed, State.alawI]

/-- Settles O47: the input port keeps its value, so the output port, its function, does too. -/
theorem otherOutputsUnchanged : Obligations.OtherOutputsUnchanged := by
  intro i s t answers k
  obtain ⟨-, rfl⟩ := exec_next answers
  constructor <;> intro notFed
  · have input := pcmI_driveBy notFed
    exact ⟨by rw [pcmI_record, input], by rw [State.alawO, pcmI_record, input, State.alawO]⟩
  · have input := alawI_driveBy notFed
    exact ⟨by rw [alawI_record, input], by rw [State.pcmO, alawI_record, input, State.pcmO]⟩

end Sys2Proof.Machine
end

section
/-! The walk bound suffices: a walk one link longer reads the same (R35, R99).  When a walk first
ends after `n + 1` links, at least `n` input ports are settled, one more at each link, and there are only so many. -/

namespace Sys2Proof.Machine

open Sys2Proof

/-- The two walks to a source, as one function of the port. -/
def sourceWithin (n : Nat) (s : State) : Port → PortValue Port
  | .pcmI k => pcmISourceWithin n s k
  | .alawI k => alawISourceWithin n s k

/-- The input ports of the system. -/
def State.inputs (s : State) : Finset Port :=
  (Finset.range s.encIn.length).image Port.pcmI ∪ (Finset.range s.decIn.length).image Port.alawI

/-- The input ports whose walk ends within `n` links. -/
def State.settled (s : State) (n : Nat) : Finset Port := s.inputs.filter (sourceWithin n s · ≠ .loop)

@[simp] theorem sourceWithin_zero (s : State) (p : Port) : sourceWithin 0 s p = .loop := by cases p <;> rfl

theorem card_inputs_lt_walkBound (s : State) : s.inputs.card < s.walkBound := by
  refine Nat.lt_succ_of_le ((Finset.card_union_le _ _).trans (Nat.add_le_add ?_ ?_))
  · exact Finset.card_image_le.trans (Finset.card_range _).le
  · exact Finset.card_image_le.trans (Finset.card_range _).le

theorem pcmI_mem_inputs {s : State} {k : Nat} {d : Drive Sample} (driver : s.encIn[k]? = some d) :
    .pcmI k ∈ s.inputs :=
  Finset.mem_union_left _ (Finset.mem_image_of_mem _ (Finset.mem_range.2 (List.getElem?_eq_some_iff.1 driver).1))

theorem alawI_mem_inputs {s : State} {k : Nat} {d : Drive Code} (driver : s.decIn[k]? = some d) :
    .alawI k ∈ s.inputs :=
  Finset.mem_union_right _ (Finset.mem_image_of_mem _ (Finset.mem_range.2 (List.getElem?_eq_some_iff.1 driver).1))

/-- One link of a walk: it ends here, whatever the bound, or it goes on from an input of the system to another port. -/
theorem sourceWithin_succ_cases (s : State) (p : Port) :
    (∃ v, v ≠ .loop ∧ ∀ n, sourceWithin (n + 1) s p = v) ∨
    (p ∈ s.inputs ∧ ∃ q, ∀ n, sourceWithin (n + 1) s p = sourceWithin n s q) := by
  cases p with
  | pcmI k =>
    obtain absent | ⟨x, host⟩ | ⟨j, wire⟩ := driver_cases s.encIn k
    · exact .inl ⟨.undriven, nofun, pcmISourceWithin_absent absent⟩
    · exact .inl ⟨.value (.pcmI k), nofun, pcmISourceWithin_host host⟩
    · exact .inr ⟨pcmI_mem_inputs wire, .alawI j, pcmISourceWithin_wire wire⟩
  | alawI k =>
    obtain absent | ⟨y, host⟩ | ⟨j, wire⟩ := driver_cases s.decIn k
    · exact .inl ⟨.undriven, nofun, alawISourceWithin_absent absent⟩
    · exact .inl ⟨.value (.alawI k), nofun, alawISourceWithin_host host⟩
    · exact .inr ⟨alawI_mem_inputs wire, .pcmI j, alawISourceWithin_wire wire⟩

/-- A walk that has ended reads the same however much further it might have gone. -/
theorem sourceWithin_succ_of_ne_loop {s : State} {n : Nat} {p : Port} (ends : sourceWithin n s p ≠ .loop) :
    sourceWithin (n + 1) s p = sourceWithin n s p := by
  induction n generalizing p with
  | zero => exact absurd (sourceWithin_zero s p) ends
  | succ n ih =>
    obtain ⟨v, -, stops⟩ | ⟨-, q, goesOn⟩ := sourceWithin_succ_cases s p
    · rw [stops, stops]
    · rw [goesOn] at ends
      rw [goesOn, goesOn, ih ends]

theorem settled_subset_succ (s : State) (n : Nat) : s.settled n ⊆ s.settled (n + 1) :=
  Finset.monotone_filter_right _ fun p _ ends => (sourceWithin_succ_of_ne_loop (p := p) ends) ▸ ends

/-- The counting behind the bound: each link before a walk's end is one more settled input. -/
theorem le_card_settled {s : State} {n : Nat} {p : Port} (loops : sourceWithin n s p = .loop)
    (ends : sourceWithin (n + 1) s p ≠ .loop) : n ≤ (s.settled (n + 1)).card := by
  induction n generalizing p with
  | zero => exact Nat.zero_le _
  | succ n ih =>
    obtain ⟨v, notLoop, stops⟩ | ⟨isInput, q, goesOn⟩ := sourceWithin_succ_cases s p
    · exact absurd ((stops n).symm.trans loops) notLoop
    · have behind : n ≤ (s.settled (n + 1)).card := ih (goesOn n ▸ loops) (goesOn (n + 1) ▸ ends)
      have newlySettled : s.settled (n + 1) ⊂ s.settled (n + 2) :=
        Finset.ssubset_iff_of_subset (settled_subset_succ s _) |>.2
          ⟨p, Finset.mem_filter.2 ⟨isInput, ends⟩, fun mem => (Finset.mem_filter.1 mem).2 loops⟩
      exact behind.trans_lt (Finset.card_lt_card newlySettled)

/-- From the bound on, one link more changes no source. -/
theorem sourceWithin_succ_of_walkBound_le {s : State} {n : Nat} (bound : s.walkBound ≤ n) (p : Port) :
    sourceWithin (n + 1) s p = sourceWithin n s p := by
  by_cases loops : sourceWithin n s p = .loop
  · by_contra changes
    have ends : sourceWithin (n + 1) s p ≠ .loop := fun h => changes (h.trans loops.symm)
    have := le_card_settled loops ends
    have : (s.settled (n + 1)).card ≤ s.inputs.card := Finset.card_filter_le _ _
    have := card_inputs_lt_walkBound s
    omega
  · exact sourceWithin_succ_of_ne_loop loops

/-- The walks to the value and to the source end at the same link, so a link that changes no source
changes no value. -/
theorem within_succ_of_source (s : State) (n : Nat) :
    (∀ k, pcmISourceWithin (n + 1) s k = pcmISourceWithin n s k → pcmIWithin (n + 1) s k = pcmIWithin n s k) ∧
    (∀ k, alawISourceWithin (n + 1) s k = alawISourceWithin n s k →
      alawIWithin (n + 1) s k = alawIWithin n s k) := by
  induction n with
  | zero =>
    constructor <;> intro k same
    · obtain absent | ⟨x, host⟩ | ⟨j, wire⟩ := driver_cases s.encIn k
      · exact nomatch (pcmISourceWithin_absent absent 0).symm.trans same
      · exact nomatch (pcmISourceWithin_host host 0).symm.trans same
      · exact pcmIWithin_wire wire 0
    · obtain absent | ⟨y, host⟩ | ⟨j, wire⟩ := driver_cases s.decIn k
      · exact nomatch (alawISourceWithin_absent absent 0).symm.trans same
      · exact nomatch (alawISourceWithin_host host 0).symm.trans same
      · exact alawIWithin_wire wire 0
  | succ n ih =>
    obtain ⟨pcmIh, alawIh⟩ := ih
    constructor <;> intro k same
    · obtain absent | ⟨x, host⟩ | ⟨j, wire⟩ := driver_cases s.encIn k
      · rw [pcmIWithin_absent absent, pcmIWithin_absent absent]
      · rw [pcmIWithin_host host, pcmIWithin_host host]
      · rw [pcmISourceWithin_wire wire, pcmISourceWithin_wire wire] at same
        rw [pcmIWithin_wire wire, pcmIWithin_wire wire, alawIh j same]
    · obtain absent | ⟨y, host⟩ | ⟨j, wire⟩ := driver_cases s.decIn k
      · rw [alawIWithin_absent absent, alawIWithin_absent absent]
      · rw [alawIWithin_host host, alawIWithin_host host]
      · rw [alawISourceWithin_wire wire, alawISourceWithin_wire wire] at same
        rw [alawIWithin_wire wire, alawIWithin_wire wire, pcmIh j same]

theorem pcmIWithin_succ_walkBound (s : State) (k : Nat) : pcmIWithin (s.walkBound + 1) s k = s.pcmI k :=
  (within_succ_of_source s s.walkBound).1 k (sourceWithin_succ_of_walkBound_le le_rfl (.pcmI k))

theorem alawIWithin_succ_walkBound (s : State) (k : Nat) : alawIWithin (s.walkBound + 1) s k = s.alawI k :=
  (within_succ_of_source s s.walkBound).2 k (sourceWithin_succ_of_walkBound_le le_rfl (.alawI k))

/-- Settles O48: the walk from the wire's other end is the same walk, one link shorter. -/
theorem sourceFollowsTheWires : Obligations.SourceFollowsTheWires := by
  intro s k
  refine ⟨?encHost, ?decHost, ?encWire, ?decWire⟩
  case encHost =>
    intro host
    obtain ⟨x, driver⟩ := (hostDrivesEnc_iff s k).1 host
    exact pcmISourceWithin_host driver _
  case decHost =>
    intro host
    obtain ⟨y, driver⟩ := (hostDrivesDec_iff s k).1 host
    exact alawISourceWithin_host driver _
  case encWire =>
    intro j driver
    calc s.source (.pcmI k) = sourceWithin (s.walkBound + 1) s (.pcmI k) :=
          (sourceWithin_succ_of_walkBound_le le_rfl (.pcmI k)).symm
      _ = s.source (.alawI j) := pcmISourceWithin_wire driver _
  case decWire =>
    intro j driver
    calc s.source (.alawI k) = sourceWithin (s.walkBound + 1) s (.alawI k) :=
          (sourceWithin_succ_of_walkBound_le le_rfl (.alawI k)).symm
      _ = s.source (.pcmI j) := alawISourceWithin_wire driver _

/-- Settles O50: one link more than the bound changes no value, and that link is the wire. -/
theorem wireCarriesTheOutput : Obligations.WireCarriesTheOutput := by
  intro s k j
  constructor <;> intro driver
  · rw [← alawIWithin_succ_walkBound, alawIWithin_wire driver, State.alawO, State.pcmI]
  · rw [← pcmIWithin_succ_walkBound, pcmIWithin_wire driver, State.pcmO, State.alawI]

end Sys2Proof.Machine
end

section
/-! From words to operations and back (R48, R50, R53). -/

namespace Sys2Proof

open Machine

theorem decode_encode (i : Instr) : decode (encode i) = i := by
  cases i <;> rfl

theorem encode_decode (p : Presented) : encode (decode p) = p := by
  cases p <;> rfl

/-- Settles O1: either is the number of a unit and the operand, on the port of that unit. -/
theorem decodeInvertsEncode : Obligations.DecodeInvertsEncode :=
  ⟨decode_encode, encode_decode⟩

/-- R50: every 16-bit pattern is a word of an encoder. -/
theorem presentWord_pcmI (k : Nat) (x : Sample) : presentWord (.pcmI k) 16 x.toNat = .ok (.onPcmI k x) := by
  have isWord : ¬ 2 ^ 16 ≤ x.toNat := Nat.not_le.2 x.isLt
  simp only [presentWord, Port.width, ne_eq, not_true_eq_false, if_false, isWord, BitVec.ofNat_toNat,
    BitVec.setWidth_eq]

/-- R50: every 8-bit pattern is a word of a decoder. -/
theorem presentWord_alawI (k : Nat) (y : Code) : presentWord (.alawI k) 8 y.toNat = .ok (.onAlawI k y) := by
  have isWord : ¬ 2 ^ 8 ≤ y.toNat := Nat.not_le.2 y.isLt
  simp only [presentWord, Port.width, ne_eq, not_true_eq_false, if_false, isWord, BitVec.ofNat_toNat,
    BitVec.setWidth_eq]

theorem presentTableWord_sample (x : Sample) : presentTableWord 16 x.toNat = .ok (.onPcmI 0 x) :=
  presentWord_pcmI 0 x

theorem presentTableWord_code (y : Code) : presentTableWord 8 y.toNat = .ok (.onAlawI 0 y) :=
  presentWord_alawI 0 y

theorem decodeTableWord_of_ok {nbits w : Nat} {p : Presented} (word : presentTableWord nbits w = .ok p) :
    decodeTableWord nbits w = some (decode p) := by
  rw [decodeTableWord, word]

theorem decodeTableWord_sample (x : Sample) : decodeTableWord 16 x.toNat = some (.alawEnc 0 x) :=
  decodeTableWord_of_ok (presentTableWord_sample x)

theorem decodeTableWord_code (y : Code) : decodeTableWord 8 y.toNat = some (.alawDec 0 y) :=
  decodeTableWord_of_ok (presentTableWord_code y)

/-- Settles O2: the two words written out are those of -1000 and of its code. -/
theorem tableWordsDecode : Obligations.TableWordsDecode :=
  ⟨decodeTableWord_sample (-1000), decodeTableWord_code 0x8A, decodeTableWord_sample, decodeTableWord_code⟩

theorem withFetchWord_of_ok {nbits w : Nat} {p : Presented} (word : presentTableWord nbits w = .ok p) (s : State) :
    s.withFetchWord nbits w = s.setPending (p :: s.pending) := by
  rw [State.withFetchWord, word]

/-- Taking the word just placed gives back the state it was placed in. -/
theorem step_withFetchWord {nbits w : Nat} {p : Presented} (word : presentTableWord nbits w = .ok p) (s : State) :
    step (s.withFetchWord nbits w) = exec (decode p) s := by
  rw [withFetchWord_of_ok word, step_cons (setPending_pending s _)]
  rfl

/-- Settles O8: every table word is a word of a unit, and it is the first one fetched. -/
theorem placedWordRunsNext : Obligations.PlacedWordRunsNext :=
  fun s => ⟨fun x => step_withFetchWord (presentTableWord_sample x) s,
    fun y => step_withFetchWord (presentTableWord_code y) s⟩

end Sys2Proof
end

section
/-! A code as the sum of its fields, and its sign (R42, R45, R49, R61). -/

namespace Sys2Proof.Machine

open Sys2Proof

/-- R45: concatenated fields do not overlap, so the plain form is their sum. -/
theorem assemble_toNat (f : CodeFields) :
    (assemble f).toNat = 128 * f.s.toNat + 16 * f.seg.toNat + f.mant.toNat := by
  rw [assemble, BitVec.toNat_append, BitVec.toNat_append, ← Nat.shiftLeft_add_eq_or_of_lt f.seg.isLt,
    ← Nat.shiftLeft_add_eq_or_of_lt f.mant.isLt, Nat.shiftLeft_eq, Nat.shiftLeft_eq]
  omega

theorem wireOf_eq (f : CodeFields) :
    wireOf f = BitVec.ofNat 8 (128 * f.s.toNat + 16 * f.seg.toNat + f.mant.toNat) ^^^ 0x55 := by
  rw [wireOf, ← assemble_toNat, BitVec.ofNat_toNat, BitVec.setWidth_eq]
  rfl

/-- Settles O3: splitting and concatenating are inverse, and so is the inversion to itself. -/
theorem codeFieldsRoundTrip : Obligations.CodeFieldsRoundTrip :=
  ⟨wireFields_wireOf, wireOf_wireFields, wireOf_eq⟩

/-- R43: a code's signed reading is negative exactly when its plain form reaches 128. -/
theorem invert_toInt_neg_iff (p : Code) : (invert p).toInt < 0 ↔ 128 ≤ p.toNat := by
  have signBits : (invert p).msb = p.msb := by
    rw [BitVec.msb_eq_getLsbD_last, BitVec.msb_eq_getLsbD_last]
    exact invert_getLsbD_seven p
  calc (invert p).toInt < 0 ↔ (invert p).msb = true := by rw [BitVec.msb_eq_toInt, decide_eq_true_iff]
    _ ↔ 128 ≤ p.toNat := by rw [signBits, BitVec.msb_eq_decide, decide_eq_true_iff]

/-- Settles O20: the terms below the sign's reach 127 at most. -/
theorem encComposeIsConcatenation : Obligations.EncComposeIsConcatenation := by
  intro sign lsb p signFlag h4 h11 fourBits
  have sum := encCompose_eq signFlag h4 h11 fourBits
  have reading : (encCompose sign p lsb).toInt < 0 ↔ 128 ≤ (sign.toNat + 16 * (p - 4) + lsb.toNat) % 2 ^ 8 := by
    rw [sum, ← BitVec.toNat_ofNat]
    exact invert_toInt_neg_iff _
  refine ⟨sum, reading.trans ?_⟩
  obtain rfl | rfl := signFlag
  · have : ¬ 128 ≤ (0 + 16 * (p - 4) + lsb.toNat) % 2 ^ 8 := by omega
    exact iff_of_false this (by decide)
  · have : 128 ≤ (128 + 16 * (p - 4) + lsb.toNat) % 2 ^ 8 := by omega
    exact iff_of_true this rfl

end Sys2Proof.Machine
end

section
/-! Encoding what the decoder answers gives the code back (R78). -/

namespace Sys2Proof.Machine

open Sys2Proof

theorem thirtyOne_lt_magnitudeOf {seg : Nat} (above : seg ≠ 0) (mant : Nat) : 31 < magnitudeOf seg mant := by
  calc 31 < 2 ^ 5 := by decide
    _ ≤ 2 ^ (seg + 4) := Nat.pow_le_pow_right (by decide) (by omega)
    _ ≤ magnitudeOf seg mant := two_pow_le_magnitudeOf above mant

theorem log2_magnitudeOf {seg mant : Nat} (above : seg ≠ 0) (hm : mant < 16) :
    (magnitudeOf seg mant).log2 = seg + 4 :=
  (Nat.log2_eq_iff (magnitudeOf_pos seg mant).ne').2
    ⟨two_pow_le_magnitudeOf above mant, magnitudeOf_lt_two_pow seg hm⟩

theorem segOf_magnitudeOf (seg : Nat) {mant : Nat} (hm : mant < 16) : segOf (magnitudeOf seg mant) = seg := by
  by_cases linear : seg = 0
  · subst linear
    rw [magnitudeOf_zero, segOf, if_pos (by omega)]
  · rw [segOf, if_neg (thirtyOne_lt_magnitudeOf linear mant).not_ge, log2_magnitudeOf linear hm, Nat.add_sub_cancel]

theorem mantOf_magnitudeOf (seg : Nat) {mant : Nat} (hm : mant < 16) : mantOf (magnitudeOf seg mant) = mant := by
  cases seg with
  | zero =>
    rw [magnitudeOf_zero, mantOf, if_pos (by omega)]
    omega
  | succ k =>
    have leadingFive : magnitudeOf (k + 1) mant / 2 ^ (k + 1) = mant + 16 := by
      rw [magnitudeOf_succ, pow_succ', Nat.mul_div_mul_right _ _ (by positivity)]
      omega
    rw [mantOf, if_neg (thirtyOne_lt_magnitudeOf k.succ_ne_zero mant).not_ge, log2_magnitudeOf k.succ_ne_zero hm,
      Nat.add_sub_cancel, leadingFive, Nat.add_sub_cancel]

/-- R69: the clamp never acts on a decoded value. -/
theorem clampedMag_decodedValue (y : Code) :
    clampedMag (decodedValue y) = magnitudeOf (wireFields y).seg.toNat (wireFields y).mant.toNat := by
  have := magnitudeOf_le (wireFields y).seg.isLt (wireFields y).mant.isLt
  rw [clampedMag, decodedValue_natAbs, Nat.min_eq_left (by omega)]

theorem wireFields_s_toNat (y : Code) : (wireFields y).s.toNat = if decodedValue y < 0 then 1 else 0 := by
  simp only [decodedValue_neg_iff]
  split
  case isTrue negative => rw [negative]; rfl
  case isFalse notNegative => bv_omega

theorem plainOf_decodedValue (y : Code) :
    plainOf (decodedValue y) =
      128 * (wireFields y).s.toNat + 16 * (wireFields y).seg.toNat + (wireFields y).mant.toNat := by
  have fourBits := (wireFields y).mant.isLt
  rw [plainOf, clampedMag_decodedValue, segOf_magnitudeOf _ fourBits, mantOf_magnitudeOf _ fourBits,
    wireFields_s_toNat]

theorem alawEncode_alawDecode (y : Code) : alawEncode (alawDecode y) = y := by
  rw [alawEncode_eq_plainOf, alawDecode_toInt, plainOf_decodedValue, ← wireOf_eq, wireOf_wireFields]

end Sys2Proof.Machine
end

section
/-! Two units joined by a wire (R52, R99). -/

namespace Sys2Proof.Machine

open Sys2Proof

/-- Settles O49: the operation leaves the wire, which carries the first unit's result to the second. -/
theorem wiredPairComposes : Obligations.WiredPairComposes := by
  constructor
  · intro k j x s t wire host answers
    obtain ⟨-, -, sameDecoders, -, -⟩ := alawEncFrame k x s t answers
    have output : t.alawO k = .value (alawEncode x) := (portsAfterPresenting.1 k x s t answers (.inl host)).2
    have input : t.alawI j = t.alawO k := (wireCarriesTheOutput t j k).1 (sameDecoders ▸ wire)
    rw [State.pcmO, input, output, map_value, roundtrip]
  · intro k j y s t wire host answers
    obtain ⟨-, -, sameEncoders, -, -⟩ := alawDecFrame k y s t answers
    have output : t.pcmO k = .value (alawDecode y) := (portsAfterPresenting.2 k y s t answers (.inl host)).2
    have input : t.pcmI j = t.pcmO k := (wireCarriesTheOutput t j k).2 (sameEncoders ▸ wire)
    rw [State.alawO, input, output, map_value, alawEncode_alawDecode]

end Sys2Proof.Machine
end

section
/-! What the host presents for a line and for a program (R52, R53). -/

namespace Sys2Proof.Machine

open Sys2Proof

theorem presents_of_not_wired {s : State} {l : ProgramLine} (separate : l.wiredIn s = false) :
    l.presents s = l.expand := by
  rw [ProgramLine.presents, separate]
  rfl

theorem presents_of_wired {s : State} {l : ProgramLine} (wired : l.wiredIn s = true) :
    l.presents s = l.expand.take 1 :=
  if_pos wired

theorem presents_subset_expand (s : State) (l : ProgramLine) : l.presents s ⊆ l.expand := by
  rw [ProgramLine.presents]
  split
  · exact List.take_subset 1 l.expand
  · exact List.Subset.refl _

/-- A wired pseudo-operation presents the word that begins it, and an operation is its word. -/
theorem map_encode_presents {s : State} {l : ProgramLine} (oneWord : l.wiredIn s = true ∨ ∃ i, l = .op i) :
    (l.presents s).map encode = [l.word] := by
  obtain wired | ⟨i, rfl⟩ := oneWord
  · rw [presents_of_wired wired]
    cases l <;> rfl
  · rw [presents_of_not_wired rfl]
    rfl

@[simp] theorem load_pending (s : State) (ls : List ProgramLine) :
    (s.load ls).pending = (programOps s ls).map encode := rfl

/-- Settles O55: each line presents the one word that begins it. -/
theorem wiredProgramIsItsWords : Obligations.WiredProgramIsItsWords := by
  refine ⟨fun ls => List.length_map _, fun s ls oneWord => ?_⟩
  calc (s.load ls).pending = ls.flatMap fun l => (l.presents s).map encode := List.map_flatMap
    _ = ls.flatMap fun l => [l.word] := List.flatMap_congr fun l mem => map_encode_presents (oneWord l mem)
    _ = programWords ls := List.map_eq_flatMap.symm

/-- Every operation of a program whose lines fit goes to a unit that exists. -/
theorem has_of_mem_programOps {s : State} {ls : List ProgramLine} (fits : ls.all (ProgramLine.fits s) = true)
    {i : Instr} (mem : i ∈ programOps s ls) : s.has i = true := by
  obtain ⟨l, lineMem, presented⟩ := List.mem_flatMap.1 mem
  exact List.all_eq_true.1 (List.all_eq_true.1 fits l lineMem) i (presents_subset_expand s l presented)

theorem load_safe {s : State} {ls : List ProgramLine} (fits : ls.all (ProgramLine.fits s) = true) :
    (s.load ls).safe = true := by
  refine List.all_eq_true.2 fun p mem => ?_
  obtain ⟨i, isOp, rfl⟩ := List.mem_map.1 mem
  rw [decode_encode]
  exact has_of_mem_programOps fits isOp

/-- R102: a program runs as the list of its operations. -/
theorem run_load {s : State} {ls : List ProgramLine} (fits : ls.all (ProgramLine.fits s) = true) :
    ∃ t : State, Host.Core.run core (s.load ls).pending.length (s.load ls) = .next t ∧ t.pending = [] ∧
      s.sameNetwork t = true ∧ t.trace = s.trace ++ (programOps s ls).map Obs.ofInstr := by
  obtain ⟨t, runs, ended, network, record⟩ := runGivesListOfResults (s.load ls) (load_safe fits)
  have triples : ((programOps s ls).map encode).map (fun p => Obs.ofInstr (decode p)) =
      (programOps s ls).map Obs.ofInstr := by
    rw [List.map_map]
    exact List.map_congr_left fun i _ => congrArg Obs.ofInstr (decode_encode i)
  exact ⟨t, runs, ended, network, triples ▸ record⟩

/-- Settles O53: a program is a safe run, and the second triple of a RECODE's expansion is R78. -/
theorem pseudoOperationsRun : Obligations.PseudoOperationsRun := by
  refine ⟨?runs, ?separate, ?wiredRoundtrip, ?wiredRecode, ?roundtrip, ?recode⟩
  case runs =>
    intro s ls fits
    obtain ⟨t, runs, ended, -, record⟩ := run_load fits
    exact ⟨t, runs, ended, record⟩
  case separate => exact fun s l separate => presents_of_not_wired separate
  case wiredRoundtrip => exact fun s e d x wired => presents_of_wired wired
  case wiredRecode => exact fun s d e y wired => presents_of_wired wired
  case roundtrip => exact fun e d x => rfl
  case recode =>
    intro d e y
    show [Obs.dec d y (alawDecode y), .enc e (alawDecode y) (alawEncode (alawDecode y))] = _
    rw [alawEncode_alawDecode]

end Sys2Proof.Machine
end

section
/-! What the host reads as a line's result (R52, R53, R102). -/

namespace Sys2Proof.Machine

open Sys2Proof

theorem wiredIn_roundtrip_iff (s : State) (e d : Nat) (x : Sample) :
    (ProgramLine.roundtrip e d x).wiredIn s = true ↔ s.hostDrivesEnc e = true ∧ s.decIn[d]? = some (.wire e) := by
  rw [ProgramLine.wiredIn, Bool.and_eq_true, beq_iff_eq]

theorem wiredIn_recode_iff (s : State) (d e : Nat) (y : Code) :
    (ProgramLine.recode d e y).wiredIn s = true ↔ s.hostDrivesDec d = true ∧ s.encIn[e]? = some (.wire d) := by
  rw [ProgramLine.wiredIn, Bool.and_eq_true, beq_iff_eq]

theorem exists_host_iff {α : Type} (l : List (Drive α)) (k : Nat) :
    (∃ v, l[k]? = some (.host v)) ↔ (l.map Drive.source)[k]? = some none := by
  rw [List.getElem?_map]
  obtain absent | ⟨v, host⟩ | ⟨j, wire⟩ := driver_cases l k
  · simp [absent]
  · simp [host, Drive.source]
  · simp [wire, Drive.source]

theorem eq_wire_iff {α : Type} (l : List (Drive α)) (k j : Nat) :
    l[k]? = some (.wire j) ↔ (l.map Drive.source)[k]? = some (some j) := by
  rw [List.getElem?_map]
  obtain absent | ⟨v, host⟩ | ⟨i, wire⟩ := driver_cases l k
  · simp [absent]
  · simp [host, Drive.source]
  · simp [wire, Drive.source]

/-- How a pair is wired is a fact about the network. -/
theorem wiredIn_congr {s t : State} (network : s.sameNetwork t = true) (l : ProgramLine) :
    l.wiredIn t = l.wiredIn s := by
  obtain ⟨enc, dec⟩ := (sameNetwork_iff s t).1 network
  cases l with
  | op i => rfl
  | roundtrip e d x =>
    rw [Bool.eq_iff_iff, wiredIn_roundtrip_iff, wiredIn_roundtrip_iff, hostDrivesEnc_iff, hostDrivesEnc_iff,
      exists_host_iff, exists_host_iff, eq_wire_iff, eq_wire_iff, enc, dec]
  | recode d e y =>
    rw [Bool.eq_iff_iff, wiredIn_recode_iff, wiredIn_recode_iff, hostDrivesDec_iff, hostDrivesDec_iff,
      exists_host_iff, exists_host_iff, eq_wire_iff, eq_wire_iff, enc, dec]

/-- Which instances there are is a fact about the network. -/
theorem has_congr {s t : State} (network : s.sameNetwork t = true) (i : Instr) : t.has i = s.has i := by
  obtain ⟨enc, dec⟩ := (sameNetwork_iff s t).1 network
  have encCount : s.encIn.length = t.encIn.length := by simpa using congrArg List.length enc
  have decCount : s.decIn.length = t.decIn.length := by simpa using congrArg List.length dec
  rw [State.has, State.has, encCount, decCount]

theorem fits_congr {s t : State} (network : s.sameNetwork t = true) : ProgramLine.fits t = ProgramLine.fits s := by
  funext l
  exact congrArg l.expand.all (funext (has_congr network))

theorem read_of_not_wired {s : State} {l : ProgramLine} (separate : l.wiredIn s = false) :
    l.read s = s.lastResult := by
  cases l <;> simp only [ProgramLine.read, separate]

theorem read_roundtrip_of_wired {s : State} {e d : Nat} {x : Sample}
    (wired : (ProgramLine.roundtrip e d x).wiredIn s = true) :
    (ProgramLine.roundtrip e d x).read s = (s.pcmO d).map .sample := by
  simp only [ProgramLine.read, wired]

theorem read_recode_of_wired {s : State} {d e : Nat} {y : Code}
    (wired : (ProgramLine.recode d e y).wiredIn s = true) :
    (ProgramLine.recode d e y).read s = (s.alawO e).map .code := by
  simp only [ProgramLine.read, wired]

theorem lastResult_of_trace {s : State} {earlier : List Obs} {o : Obs} (record : s.trace = earlier ++ [o]) :
    s.lastResult = .value o.result := by
  rw [State.lastResult, record, List.getLast?_concat]

theorem result_recode (d e : Nat) (y : Code) : (ProgramLine.recode d e y).result = .code y :=
  congrArg Result.code (alawEncode_alawDecode y)

/-- R52: what a line stands for is the result of the last operation of its expansion. -/
theorem expand_ends_with_result (l : ProgramLine) :
    ∃ (is : List Instr) (i : Instr), l.expand = is ++ [i] ∧ (Obs.ofInstr i).result = l.result := by
  cases l with
  | op i => exact ⟨[], i, rfl, by cases i <;> rfl⟩
  | roundtrip e d x => exact ⟨[.alawEnc e x], .alawDec d (alawEncode x), rfl, rfl⟩
  | recode d e y => exact ⟨[.alawDec d y], .alawEnc e (alawDecode y), rfl, rfl⟩

end Sys2Proof.Machine
end

section
/-! A program run line by line ends with its results (R53). -/

namespace Sys2Proof.Machine

open Sys2Proof

theorem exec_sameNetwork {i : Instr} {s t : State} (answers : exec i s = .next t) : s.sameNetwork t = true := by
  obtain ⟨-, rfl⟩ := exec_next answers
  exact sameNetwork_driveBy s i

/-- R52: after the first operation of a line on a wired pair, the end of the wire carries the line's result. -/
theorem read_of_wired {s t : State} {l : ProgramLine} (wired : l.wiredIn s = true)
    (answers : exec (decode l.word) s = .next t) : l.read t = .value l.result := by
  have stillWired : l.wiredIn t = true := (wiredIn_congr (exec_sameNetwork answers) l).trans wired
  cases l with
  | op i => cases wired
  | roundtrip e d x =>
    obtain ⟨host, wire⟩ := (wiredIn_roundtrip_iff s e d x).1 wired
    rw [read_roundtrip_of_wired stillWired, wiredPairComposes.1 e d x s t wire host answers]
    rfl
  | recode d e y =>
    obtain ⟨host, wire⟩ := (wiredIn_recode_iff s d e y).1 wired
    rw [read_recode_of_wired stillWired, wiredPairComposes.2 d e y s t wire host answers, result_recode]
    rfl

/-- R52: on a pair no wire joins the whole expansion is observed, the line's result last. -/
theorem read_of_expansion_observed {t : State} {l : ProgramLine} {earlier : List Obs} (separate : l.wiredIn t = false)
    (record : t.trace = earlier ++ l.expand.map Obs.ofInstr) : l.read t = .value l.result := by
  obtain ⟨is, i, expansion, result⟩ := expand_ends_with_result l
  rw [expansion, List.map_append, ← List.append_assoc] at record
  rw [read_of_not_wired separate, lastResult_of_trace record, result]

theorem run_one (s : State) : Host.Core.run core 1 s = step s := by
  have coreSteps : core.step s = step s := rfl
  simp only [Host.Core.run, coreSteps]
  cases step s <;> rfl

theorem exec_of_run_one {s t : State} {p : Presented} (lastWord : s.pending = [p])
    (runs : Host.Core.run core s.pending.length s = .next t) : exec (decode p) (s.setPending []) = .next t := by
  rw [lastWord] at runs
  rw [← step_cons lastWord, ← run_one]
  exact runs

theorem programOps_singleton (s : State) (l : ProgramLine) : programOps s [l] = l.presents s :=
  List.append_nil _

/-- The words of one line, presented, leave the host with that line's result to read. -/
theorem run_line {s : State} {l : ProgramLine} (fits : l.fits s = true) :
    ∃ t : State, Host.Core.run core (l.presents s).length (s.load [l]) = .next t ∧ s.sameNetwork t = true ∧
      l.read t = .value l.result := by
  have allFit : [l].all (ProgramLine.fits s) = true := (Bool.and_true _).trans fits
  obtain ⟨t, runs, -, network, record⟩ := run_load allFit
  have words : (s.load [l]).pending.length = (l.presents s).length := by
    rw [load_pending, List.length_map, programOps_singleton]
  refine ⟨t, words ▸ runs, network, ?_⟩
  cases wired : l.wiredIn s with
  | false =>
    rw [programOps_singleton, presents_of_not_wired wired] at record
    exact read_of_expansion_observed ((wiredIn_congr network l).trans wired) record
  | true =>
    have oneWord : (s.load [l]).pending = [l.word] :=
      wiredProgramIsItsWords.2 s [l] (List.forall_mem_singleton.2 (.inl wired))
    exact read_of_wired (s := (s.load [l]).setPending []) wired (exec_of_run_one oneWord runs)

/-- R53: line by line, because a line leaves the instances and the wires for the next one. -/
theorem runProgram_results {s : State} {ls : List ProgramLine} (fits : ls.all (ProgramLine.fits s) = true) :
    ∃ t : State, runProgram ls s = .next (t, (programResults ls).map PortValue.value) := by
  induction ls generalizing s with
  | nil => exact ⟨s, rfl⟩
  | cons l ls ih =>
    rw [List.all_cons, Bool.and_eq_true] at fits
    obtain ⟨lineFits, restFits⟩ := fits
    obtain ⟨t, runs, network, result⟩ := run_line lineFits
    obtain ⟨u, rest⟩ := ih (s := t) (fits_congr network ▸ restFits)
    refine ⟨u, ?_⟩
    rw [runProgram, runs]
    show consResult (l.read t) (runProgram ls t) = _
    rw [rest, result]
    rfl

/-- Settles O54: the lines in another order fit as well, and their results are the same list reordered. -/
theorem programEndsWithItsResults : Obligations.ProgramEndsWithItsResults := by
  refine ⟨?inOrder, ?reordered, fun _ _ _ => rfl, result_recode⟩
  case inOrder => exact fun s ls fits => runProgram_results fits
  case reordered =>
    intro s ls ls' fits perm
    obtain ⟨t, runs⟩ := runProgram_results (perm.all_eq.trans fits)
    exact ⟨t, _, runs, (perm.map _).map _⟩

end Sys2Proof.Machine
end

section
/-! ALAW_ENC answers with the interval map's code, and the first two steps of the encoder (R54 to R57, R62). -/

namespace Sys2Proof.Machine

open Sys2Proof

/-- R54, R62, R85: whatever drives its input, an encoder that exists answers the interval map's code. -/
theorem exec_alawEnc_of_driver {s : State} {k : Nat} {d : Drive Sample} (driver : s.encIn[k]? = some d) (x : Sample) :
    exec (.alawEnc k x) s =
      .next ((s.driveEnc k x).record (.enc k x (BitVec.ofNat 8 (plainOf x.toInt) ^^^ 0x55))) := by
  obtain ⟨hk, -⟩ := List.getElem?_eq_some_iff.1 driver
  rw [← alawEncode_eq_plainOf]
  exact presentEnc_of_lt hk x (alawEncode x)

/-- Settles O9: what drives the input decides whether presenting the sample changes it. -/
theorem alawEncCompletes : Obligations.AlawEncCompletes := by
  intro k x s
  constructor
  · intro hostDrives
    obtain ⟨v, driver⟩ := (hostDrivesEnc_iff s k).1 hostDrives
    rw [exec_alawEnc_of_driver driver, State.record, State.driveEnc, modify_present_host driver]
  · intro j driver
    rw [exec_alawEnc_of_driver driver, State.record, State.driveEnc, modify_present_wire driver]

/-- Settles O15: the sign flag and the magnitude of every sample, then the spec's examples evaluated. -/
theorem encSignAndMagnitude : Obligations.EncSignAndMagnitude :=
  ⟨fun x => ⟨encSign_eq x, encSignMag_magnitude_toNat x⟩, rfl, by decide, rfl, rfl⟩

/-- R57: the top four bits are the quotient by 4096, so one of them is set exactly above 4095. -/
theorem alawMax_lt_iff (m : BitVec 16) : alawMax < m ↔ m.extractLsb' 12 4 ≠ 0 := by
  have topBits : (m.extractLsb' 12 4).toNat = m.toNat / 2 ^ 12 := by
    rw [BitVec.extractLsb'_toNat, Nat.shiftRight_eq_div_pow]
    omega
  have comparison : alawMax < m ↔ 4095 < m.toNat := Iff.rfl
  have zero : (0 : BitVec 4).toNat = 0 := rfl
  rw [comparison, Ne, ← BitVec.toNat_inj, topBits, zero]
  omega

/-- Settles O16: the clamp's comparison is the test of the top four bits. -/
theorem encClampIsMinimum : Obligations.EncClampIsMinimum :=
  fun m => ⟨encClamp_toNat m, if_congr (alawMax_lt_iff m) rfl rfl⟩

end Sys2Proof.Machine
end

section
/-! The position in each of the spec's forms, and the mantissa (R58 to R60). -/

namespace Sys2Proof.Machine

open Sys2Proof

/-- Settles O17: the loop's result is the first set bit counting down. -/
theorem encPositionIsFirstSetBit : Obligations.EncPositionIsFirstSetBit := by
  intro m
  have first := encPosition_firstSetBit m
  exact ⟨first.four_le, first.le_start, first.clear_above, first.set_at⟩

/-- R58: two results that differ would disagree about the bit at the higher one. -/
theorem FirstSetBit.unique {m : BitVec 16} {start r r' : Nat} (h : FirstSetBit m start r)
    (h' : FirstSetBit m start r') : r = r' := by
  have notBelow {a b : Nat} (ha : FirstSetBit m start a) (hb : FirstSetBit m start b) : ¬ a < b := fun below =>
    Bool.eq_false_iff.1 (ha.clear_above b below hb.le_start) (hb.set_at (ha.four_le.trans_lt below))
  exact Nat.le_antisymm (Nat.not_lt.1 (notBelow h' h)) (Nat.not_lt.1 (notBelow h h'))

/-- A search from position 4 ends there, whatever bit 4 is. -/
theorem FirstSetBit.four (m : BitVec 16) : FirstSetBit m 4 4 := .stop le_rfl fun above => absurd above (lt_irrefl 4)

/-- A search that starts one position higher is one test more. -/
theorem FirstSetBit.test {m : BitVec 16} {p r : Nat} (h : FirstSetBit m p r) :
    FirstSetBit m (p + 1) (if m.getLsbD (p + 1) then p + 1 else r) := by
  split
  case isTrue bitSet => exact .stop (h.four_le.trans (Nat.le_succ_of_le h.le_start)) fun _ => bitSet
  case isFalse bitClear => exact .again (Bool.eq_false_iff.2 bitClear) h

/-- R59: the priority encoder makes the loop's seven tests, from bit 11 down to bit 5. -/
theorem positionByBits_firstSetBit (m : BitVec 16) : FirstSetBit m 11 (positionByBits m) :=
  (FirstSetBit.four m).test.test.test.test.test.test.test

/-- R59: counting leading zeros from bit `start` down finds the first set bit. -/
theorem leadingZeros_firstSetBit (m : BitVec 16) {start : Nat} (h : 4 ≤ start) :
    FirstSetBit m start (max 4 (start - leadingZeros (start + 1) m)) := by
  induction start, h using Nat.le_induction with
  | base =>
    rw [Nat.max_eq_left (Nat.sub_le _ _)]
    exact .four m
  | succ p h ih =>
    have oneTest : max 4 (p + 1 - leadingZeros (p + 1 + 1) m) =
        if m.getLsbD (p + 1) then p + 1 else max 4 (p - leadingZeros (p + 1) m) := by
      rw [leadingZeros]
      split
      case isTrue => rw [Nat.sub_zero, Nat.max_eq_right (Nat.le_succ_of_le h)]
      case isFalse => rw [Nat.add_sub_add_right]
    rw [oneTest]
    exact ih.test

/-- R59: up to magnitude 31 the logarithm is at most 4, and the maximum is 4. -/
theorem encPosition_eq_max_log2 {m : BitVec 16} (hm : m.toNat ≤ 4095) (pos : 1 ≤ m.toNat) :
    encPosition m = max 4 (Nat.log2 m.toNat) := by
  by_cases linear : m.toNat ≤ 31
  · have : m.toNat.log2 < 5 := (Nat.log2_lt (by omega)).2 (by omega)
    rw [(encPosition_eq_four_iff hm).2 linear, Nat.max_eq_left (by omega)]
  · rw [log2_eq_encPosition hm (Nat.not_le.1 linear), Nat.max_eq_right (encPosition_firstSetBit m).four_le]

/-- Settles O18: the loop, the priority encoder and the count of leading zeros all find the first set bit. -/
theorem encPositionClosedForms : Obligations.EncPositionClosedForms := by
  intro m hm
  have linear := encPosition_eq_four_iff hm
  have leadingBit (large : 32 ≤ m.toNat) : 2 ^ encPosition m ≤ m.toNat :=
    two_pow_encPosition_le ((four_lt_encPosition_iff hm).2 large)
  exact ⟨(encPosition_firstSetBit m).unique (positionByBits_firstSetBit m),
    fun zero => linear.2 (by omega),
    encPosition_eq_max_log2 hm,
    (encPosition_firstSetBit m).unique (leadingZeros_firstSetBit m (by decide)),
    linear,
    fun large => ⟨leadingBit large, lt_two_pow_encPosition_succ hm⟩⟩

/-- Settles O19: shift and mask are quotient and remainder at every position. -/
theorem encMantissaField : Obligations.EncMantissaField :=
  fun m p _ _ => encMantissa_toNat m p

end Sys2Proof.Machine
end

section
/-! The intervals of magnitudes with given fields (R62). -/

namespace Sys2Proof.Machine

open Sys2Proof

theorem segOf_eq_zero_iff (m : Nat) : segOf m = 0 ↔ m ≤ 31 := by
  by_cases linear : m ≤ 31
  · rw [segOf, if_pos linear]
    exact iff_of_true rfl linear
  · have : 5 ≤ m.log2 := (Nat.le_log2 (by omega)).2 (by omega)
    rw [segOf, if_neg linear]
    omega

/-- R62: above segment 0 the segment says where the leading bit is: the magnitude over `2 ^ seg` has five bits. -/
theorem segOf_eq_succ_iff (m k : Nat) : segOf m = k + 1 ↔ 16 ≤ m / 2 ^ (k + 1) ∧ m / 2 ^ (k + 1) < 32 := by
  have fiveBits : (16 ≤ m / 2 ^ (k + 1) ∧ m / 2 ^ (k + 1) < 32) ↔ 2 ^ (k + 5) ≤ m ∧ m < 2 ^ (k + 5 + 1) := by
    rw [Nat.le_div_iff_mul_le (by positivity), Nat.div_lt_iff_lt_mul (by positivity)]
    ring_nf
  have thirtyTwo_le : 2 ^ 5 ≤ 2 ^ (k + 5) := Nat.pow_le_pow_right (by decide) (by omega)
  rw [fiveBits]
  by_cases linear : m ≤ 31
  · rw [(segOf_eq_zero_iff m).2 linear]
    omega
  · rw [← Nat.log2_eq_iff (by omega), segOf, if_neg linear]
    omega

theorem mantOf_of_segOf_eq_succ {m k : Nat} (h : segOf m = k + 1) : mantOf m = m / 2 ^ (k + 1) - 16 := by
  have above : ¬ m ≤ 31 := fun linear => by simp [(segOf_eq_zero_iff m).2 linear] at h
  rw [segOf, if_neg above] at h
  rw [mantOf, if_neg above, h]

theorem intervalLo_zero (mant : Nat) : intervalLo 0 mant = 2 * mant := rfl

theorem intervalLo_succ (k mant : Nat) : intervalLo (k + 1) mant = (mant + 16) * 2 ^ (k + 1) := by
  rw [intervalLo, if_neg k.succ_ne_zero]
  ring

/-- R62: from segment 1 on an interval is the magnitudes with one quotient by `2 ^ seg`. -/
theorem mem_interval_succ_iff (k mant m : Nat) :
    (intervalLo (k + 1) mant ≤ m ∧ m ≤ intervalHi (k + 1) mant) ↔ m / 2 ^ (k + 1) = mant + 16 := by
  have : 0 < 2 ^ (k + 1) := by positivity
  rw [intervalHi_succ, intervalLo_succ, Nat.div_eq_iff this]

/-- R62: a pair of fields is one interval of magnitudes. -/
theorem fields_eq_iff_mem_interval {seg mant : Nat} (hm : mant < 16) (m : Nat) :
    (segOf m = seg ∧ mantOf m = mant) ↔ (intervalLo seg mant ≤ m ∧ m ≤ intervalHi seg mant) := by
  cases seg with
  | zero =>
    have mantissa (linear : m ≤ 31) : mantOf m = m / 2 := if_pos linear
    rw [segOf_eq_zero_iff, intervalLo_zero, intervalHi_zero]
    omega
  | succ k =>
    have segment := segOf_eq_succ_iff m k
    have mantissa := mantOf_of_segOf_eq_succ (m := m) (k := k)
    rw [mem_interval_succ_iff]
    omega

/-- Settles O21: a sample's code is the sum of its sign and its fields, which the interval fixes. -/
theorem encoderIntervals : Obligations.EncoderIntervals := by
  intro seg mant _ hm
  refine ⟨fun m _ => fields_eq_iff_mem_interval hm m, fun x lo hi => ?_⟩
  obtain ⟨segment, mantissa⟩ := (fields_eq_iff_mem_interval hm _).2 ⟨lo, hi⟩
  rw [alawEncode_eq_plainOf, plainOf, segment, mantissa, mul_ite, mul_one, mul_zero]

end Sys2Proof.Machine
end

section
/-! ALAW_DEC answers with the closed form's sample (R63, R71, R85). -/

namespace Sys2Proof.Machine

open Sys2Proof

/-- R71: the closed form's value fits a sample, so the decoder's pattern is the value's. -/
theorem alawDecode_eq_ofInt (y : Code) : alawDecode y = BitVec.ofInt 16 (decodedValue y) := by
  rw [← alawDecode_toInt, BitVec.ofInt_toInt]

/-- R63, R71, R85: whatever drives its input, a decoder that exists answers the closed form's sample. -/
theorem exec_alawDec_of_driver {s : State} {k : Nat} {d : Drive Code} (driver : s.decIn[k]? = some d) (y : Code) :
    exec (.alawDec k y) s = .next ((s.driveDec k y).record (.dec k y (BitVec.ofInt 16 (decodedValue y)))) := by
  obtain ⟨hk, -⟩ := List.getElem?_eq_some_iff.1 driver
  rw [← alawDecode_eq_ofInt]
  exact presentDec_of_lt hk y (alawDecode y)

/-- Settles O10: what drives the input decides whether presenting the code changes it. -/
theorem alawDecCompletes : Obligations.AlawDecCompletes := by
  intro k y s
  constructor
  · intro hostDrives
    obtain ⟨v, driver⟩ := (hostDrivesDec_iff s k).1 hostDrives
    rw [exec_alawDec_of_driver driver, State.record, State.driveDec, modify_present_host driver]
  · intro j driver
    rw [exec_alawDec_of_driver driver, State.record, State.driveDec, modify_present_wire driver]

end Sys2Proof.Machine
end

section
/-! The five steps of the decoder as the spec states them (R64 to R70). -/

namespace Sys2Proof.Machine

open Sys2Proof

/-- Settles O22: the inversion leaves the sign bit, and the position is a quotient of the byte without it. -/
theorem decSignAndPosition : Obligations.DecSignAndPosition := by
  intro y
  refine ⟨rfl, ?sign, decSign_snd_toNat _, ?position⟩
  case sign => exact (decNeg_eq_getLsbD _).trans (invert_getLsbD_seven y)
  case position =>
    rw [decPosition_eq, decSign_snd_toNat]
    rfl

/-- R66: position 4 is segment 0, where the working value is the nibble. -/
theorem decPosition_eq_four_iff (w : Code) : decPosition w = 4 ↔ w.toNat < 16 := by
  rw [decPosition_eq]
  omega

/-- Settles O23: above position 4 the factored magnitude is multiplied out; at position 4 the nibble is all of `w`. -/
theorem decMagnitudeSums : Obligations.DecMagnitudeSums := by
  constructor
  case left =>
    intro w p _ h5 h11
    obtain ⟨k, rfl⟩ := Nat.exists_eq_add_of_le' h5
    have shift : k + 5 - 4 = k + 1 := rfl
    rw [decMagnitude_toNat w (by omega), shift, Nat.add_sub_cancel]
    ring
  case right =>
    intro w hw four
    rw [decMagnitude_four_toNat hw, Nat.mod_eq_of_lt ((decPosition_eq_four_iff w).1 four)]

/-- R69: no code decodes to 0. -/
theorem alawDecode_ne_zero (y : Code) : alawDecode y ≠ 0 := by
  intro isZero
  have valueZero : decodedValue y = 0 := by
    rw [← alawDecode_toInt, isZero]
    rfl
  have positive := magnitudeOf_pos (wireFields y).seg.toNat (wireFields y).mant.toNat
  rw [← decodedValue_natAbs, valueZero] at positive
  exact absurd positive (by decide)

/-- Settles O24: both bounds are the closed form's. -/
theorem decMagnitudeRange : Obligations.DecMagnitudeRange :=
  fun y => ⟨alawMagnitude_toNat_pos y, alawMagnitude_toNat_le y, alawDecode_ne_zero y⟩

/-- Settles O25: a magnitude of at most 4032 leaves the sign bit clear. -/
theorem decApplySignIsExact : Obligations.DecApplySignIsExact := by
  intro d _ h4032
  have noOverflow : d.toNat < 32768 := by omega
  exact ⟨decApplySign_toInt true noOverflow, decApplySign_toInt false noOverflow⟩

end Sys2Proof.Machine
end

section
/-! The fields of a sample's code, and the samples that have a given code (R62). -/

namespace Sys2Proof.Machine

open Sys2Proof

theorem clampedMag_le (v : Int) : clampedMag v ≤ 4095 := Nat.min_le_right _ _

theorem segOf_lt {m : Nat} (hm : m ≤ 4095) : segOf m < 8 := by
  by_cases linear : m ≤ 31
  · rw [(segOf_eq_zero_iff m).2 linear]
    decide
  · have : m.log2 < 12 := (Nat.log2_lt (by omega)).2 (by omega)
    rw [segOf, if_neg linear]
    omega

theorem mantOf_lt (m : Nat) : mantOf m < 16 := by
  cases segment : segOf m with
  | zero =>
    have linear := (segOf_eq_zero_iff m).1 segment
    rw [mantOf, if_pos linear]
    omega
  | succ k =>
    have fiveBits := (segOf_eq_succ_iff m k).1 segment
    rw [mantOf_of_segOf_eq_succ segment]
    omega

/-- The fields of R62, each cut to its width, for the sample of value `v`. -/
def sampleFields (v : Int) : CodeFields where
  s := if v < 0 then 1 else 0
  seg := BitVec.ofNat 3 (segOf (clampedMag v))
  mant := BitVec.ofNat 4 (mantOf (clampedMag v))

theorem sampleFields_s_eq_one_iff (v : Int) : (sampleFields v).s = 1 ↔ v < 0 := by
  simp [sampleFields]

theorem sampleFields_s_toNat (v : Int) : (sampleFields v).s.toNat = if v < 0 then 1 else 0 :=
  apply_ite BitVec.toNat ..

theorem sampleFields_seg_toNat (v : Int) : (sampleFields v).seg.toNat = segOf (clampedMag v) :=
  Nat.mod_eq_of_lt (segOf_lt (clampedMag_le v))

theorem sampleFields_mant_toNat (v : Int) : (sampleFields v).mant.toNat = mantOf (clampedMag v) :=
  Nat.mod_eq_of_lt (mantOf_lt (clampedMag v))

theorem alawEncode_eq_wireOf (x : Sample) : alawEncode x = wireOf (sampleFields x.toInt) := by
  rw [alawEncode_eq_plainOf, wireOf_eq, sampleFields_s_toNat, sampleFields_seg_toNat, sampleFields_mant_toNat, plainOf]

@[simp] theorem wireFields_alawEncode (x : Sample) : wireFields (alawEncode x) = sampleFields x.toInt := by
  rw [alawEncode_eq_wireOf, wireFields_wireOf]

/-- R62: the samples of one code are those of one sign whose clamped magnitude lies in one interval. -/
theorem alawEncode_eq_wireOf_iff (x : Sample) (f : CodeFields) :
    alawEncode x = wireOf f ↔ (x.toInt < 0 ↔ f.s = 1) ∧
      intervalLo f.seg.toNat f.mant.toNat ≤ clampedMag x.toInt ∧
      clampedMag x.toInt ≤ intervalHi f.seg.toNat f.mant.toNat := by
  rw [← fields_eq_iff_mem_interval f.mant.isLt, ← sampleFields_s_eq_one_iff, ← sampleFields_seg_toNat,
    ← sampleFields_mant_toNat]
  constructor
  · intro code
    obtain rfl : sampleFields x.toInt = f := by rw [← wireFields_alawEncode, code, wireFields_wireOf]
    exact ⟨Iff.rfl, rfl, rfl⟩
  · rintro ⟨sign, seg, mant⟩
    rw [alawEncode_eq_wireOf, codeFields_ext sign seg mant]

end Sys2Proof.Machine
end

section
/-! Bit 7 is the sign in both directions, and the round trip keeps it (R76, R82). -/

namespace Sys2Proof.Machine

open Sys2Proof

theorem wireFields_s_eq_one_iff_getLsbD (y : Code) : (wireFields y).s = 1 ↔ y.getLsbD 7 = true := by
  rw [wireFields_s_eq_one_iff, decNeg_eq_getLsbD, decUninvert, invert_getLsbD_seven]

theorem alawEncode_getLsbD_seven_iff (x : Sample) : (alawEncode x).getLsbD 7 = true ↔ x.toInt < 0 := by
  rw [← wireFields_s_eq_one_iff_getLsbD, wireFields_alawEncode, sampleFields_s_eq_one_iff]

theorem alawDecode_toInt_neg_iff (y : Code) : (alawDecode y).toInt < 0 ↔ y.getLsbD 7 = true := by
  rw [alawDecode_toInt, decodedValue_neg_iff, wireFields_s_eq_one_iff_getLsbD]

theorem code_toInt_neg_iff (y : Code) : y.toInt < 0 ↔ y.getLsbD 7 = true := by
  have bit7 : y.msb = y.getLsbD 7 := BitVec.msb_eq_getLsbD_last y
  rw [← bit7, BitVec.msb_eq_toInt, decide_eq_true_iff]

/-- Settles O35: the sign field is bit 7 of the code, and the inversion leaves it. -/
theorem signBitOfCode : Obligations.SignBitOfCode :=
  ⟨alawEncode_getLsbD_seven_iff, fun x => (code_toInt_neg_iff _).trans (alawEncode_getLsbD_seven_iff x),
    alawDecode_toInt_neg_iff, invert_getLsbD_seven⟩

theorem roundtrip_toInt_neg_iff (x : Sample) : (roundtrip x).toInt < 0 ↔ x.toInt < 0 :=
  (alawDecode_toInt_neg_iff _).trans (alawEncode_getLsbD_seven_iff x)

theorem alawDecode_toInt_ne_zero (y : Code) : (alawDecode y).toInt ≠ 0 :=
  BitVec.toInt_ne.2 (alawDecode_ne_zero y)

/-- Settles O30: encoder and decoder agree on the sign, and no code decodes to 0. -/
theorem signPreservation : Obligations.SignPreservation := by
  refine ⟨?positive, ?negative, by decide, fun x => alawDecode_ne_zero _⟩
  case positive =>
    intro x positive
    have notNegative : ¬ (roundtrip x).toInt < 0 := mt (roundtrip_toInt_neg_iff x).1 positive.not_gt
    have notZero : (roundtrip x).toInt ≠ 0 := alawDecode_toInt_ne_zero _
    omega
  case negative => exact fun x negative => Int.le_sub_one_of_lt ((roundtrip_toInt_neg_iff x).2 negative)

end Sys2Proof.Machine
end

section
/-! The samples of the codes 0x2A, 0xAA and 0xD5: the clamping law (R75) and part of R74. -/

namespace Sys2Proof.Machine

open Sys2Proof

theorem alawEncode_eq_0x2A_iff (x : Sample) : alawEncode x = 0x2A ↔ 3968 ≤ x.toInt := by
  have interval : alawEncode x = 0x2A ↔ (x.toInt < 0 ↔ (0 : BitVec 1) = 1) ∧
      3968 ≤ clampedMag x.toInt ∧ clampedMag x.toInt ≤ 4095 := alawEncode_eq_wireOf_iff x ⟨0, 7, 15⟩
  have signClear : ¬ (0 : BitVec 1) = 1 := by decide
  rw [interval, iff_false_right signClear, clampedMag]
  omega

theorem alawEncode_eq_0xAA_iff (x : Sample) : alawEncode x = 0xAA ↔ x.toInt ≤ -3968 := by
  have interval : alawEncode x = 0xAA ↔ (x.toInt < 0 ↔ (1 : BitVec 1) = 1) ∧
      3968 ≤ clampedMag x.toInt ∧ clampedMag x.toInt ≤ 4095 := alawEncode_eq_wireOf_iff x ⟨1, 7, 15⟩
  rw [interval, iff_true_right rfl, clampedMag]
  omega

/-- R74: 0 has the magnitude interval of -1 but not its sign. -/
theorem alawEncode_eq_0xD5_iff (x : Sample) : alawEncode x = 0xD5 ↔ x.toInt = -1 := by
  have interval : alawEncode x = 0xD5 ↔ (x.toInt < 0 ↔ (1 : BitVec 1) = 1) ∧
      0 ≤ clampedMag x.toInt ∧ clampedMag x.toInt ≤ 1 := alawEncode_eq_wireOf_iff x ⟨1, 0, 0⟩
  rw [interval, iff_true_right rfl, clampedMag]
  omega

/-- Settles O29: 4095 and every sample above it are in the last interval, and so on the negative side. -/
theorem clampingLaw : Obligations.ClampingLaw := by
  refine ⟨?above, ?below, alawEncode_eq_0x2A_iff, alawEncode_eq_0xAA_iff⟩
  case above =>
    intro x above
    have code : alawEncode x = 0x2A := (alawEncode_eq_0x2A_iff x).2 (by omega)
    have codeOfMax : alawEncode 4095 = 0x2A := (alawEncode_eq_0x2A_iff 4095).2 (by decide)
    exact ⟨code.trans codeOfMax.symm, code⟩
  case below =>
    intro x below
    have code : alawEncode x = 0xAA := (alawEncode_eq_0xAA_iff x).2 (by omega)
    have codeOfMin : alawEncode (-4095) = 0xAA := (alawEncode_eq_0xAA_iff (-4095)).2 (by decide)
    exact ⟨code.trans codeOfMin.symm, code⟩

end Sys2Proof.Machine
end

section
/-! Odd symmetry: bit 7 of a code is its sign field and nothing else (R74). -/

namespace Sys2Proof.Machine

open Sys2Proof

/-- The same magnitude with the other sign. -/
def CodeFields.flipSign (f : CodeFields) : CodeFields := { f with s := ~~~f.s }

@[simp] theorem flipSign_seg (f : CodeFields) : f.flipSign.seg = f.seg := rfl
@[simp] theorem flipSign_mant (f : CodeFields) : f.flipSign.mant = f.mant := rfl

@[simp] theorem flipSign_s_eq_one_iff (f : CodeFields) : f.flipSign.s = 1 ↔ ¬ f.s = 1 := by
  have oneBit : ∀ s : BitVec 1, ~~~s = 1 ↔ ¬ s = 1 := by decide
  exact oneBit f.s

theorem wireFields_xor_signBit (y : Code) : wireFields (y ^^^ 0x80) = (wireFields y).flipSign := by
  have plainForm : invert (y ^^^ 0x80) = invert y ^^^ 0x80 := by
    rw [invert, invert, BitVec.xor_assoc, BitVec.xor_comm 0x80, BitVec.xor_assoc]
  have signField : (0x80 : Code).extractLsb' 7 1 = BitVec.allOnes 1 := by decide
  have segField : (0x80 : Code).extractLsb' 4 3 = 0#3 := by decide
  have mantField : (0x80 : Code).extractLsb' 0 4 = 0#4 := by decide
  rw [wireFields, plainForm, plainFields, BitVec.extractLsb'_xor, BitVec.extractLsb'_xor, BitVec.extractLsb'_xor,
    signField, segField, mantField, BitVec.xor_allOnes, BitVec.xor_zero, BitVec.xor_zero]
  rfl

theorem decodedValue_xor_signBit (y : Code) : decodedValue (y ^^^ 0x80) = -decodedValue y := by
  rw [decodedValue_eq, decodedValue_eq, wireFields_xor_signBit, flipSign_seg, flipSign_mant]
  simp only [flipSign_s_eq_one_iff]
  by_cases negative : (wireFields y).s = 1
  · rw [if_neg (not_not.2 negative), if_pos negative, neg_neg]
  · rw [if_pos negative, if_neg negative]

/-- Only the sign and the clamped magnitude count, so the minimum sample is opposite to 32767. -/
theorem alawEncode_of_opposite {x x' : Sample} (sign : x'.toInt < 0 ↔ ¬ x.toInt < 0)
    (magnitude : clampedMag x'.toInt = clampedMag x.toInt) : alawEncode x' = alawEncode x ^^^ 0x80 := by
  have fields : sampleFields x'.toInt = (sampleFields x.toInt).flipSign := by
    apply codeFields_ext
    · rw [flipSign_s_eq_one_iff, sampleFields_s_eq_one_iff, sampleFields_s_eq_one_iff, sign]
    · rw [flipSign_seg, sampleFields_seg_toNat, sampleFields_seg_toNat, magnitude]
    · rw [flipSign_mant, sampleFields_mant_toNat, sampleFields_mant_toNat, magnitude]
  rw [alawEncode_eq_wireOf x', fields, ← wireFields_alawEncode, ← wireFields_xor_signBit, wireOf_wireFields]

theorem alawEncode_neg {x : Sample} (positive : 1 ≤ x.toInt) : alawEncode (-x) = alawEncode x ^^^ 0x80 := by
  have notMin : x ≠ BitVec.intMin 16 := by
    rintro rfl
    exact absurd positive (by decide)
  have negated : (-x).toInt = -x.toInt := BitVec.toInt_neg_of_ne_intMin notMin
  have magnitude : clampedMag (-x).toInt = clampedMag x.toInt := by
    rw [negated, clampedMag, clampedMag, Int.natAbs_neg]
  exact alawEncode_of_opposite (by omega) magnitude

/-- Settles O28: opposite samples have codes that differ in the sign field, and the decoder reads it as the sign. -/
theorem oddSymmetry : Obligations.OddSymmetry := by
  refine ⟨fun x => alawEncode_neg, ?minimum, ?minimumCode, by decide, alawEncode_eq_0xD5_iff, ?decoder⟩
  case minimum => exact alawEncode_of_opposite (by decide) rfl
  case minimumCode => exact (alawEncode_eq_0xAA_iff 0x8000).2 (by decide)
  case decoder =>
    intro y
    rw [alawDecode_toInt, alawDecode_toInt, decodedValue_xor_signBit]

end Sys2Proof.Machine
end

section
/-! Recoding on the machine, and the smallest magnitudes (R77, R78). -/

namespace Sys2Proof.Machine

open Sys2Proof

theorem alawEncode_surjective : Function.Surjective alawEncode := fun y => ⟨alawDecode y, alawEncode_alawDecode y⟩

/-- Settles O32: the decoder's operation leaves the encoder, whose triple on the result is R78. -/
theorem recodingIsIdentity : Obligations.RecodingIsIdentity := by
  refine ⟨?machine, alawEncode_alawDecode, alawEncode_surjective, fun _ _ same => alawDecode_injective same⟩
  case machine =>
    intro s j k y decoder encoder
    obtain ⟨t, decoded⟩ : ∃ t, exec (.alawDec j y) s = .next t := ⟨_, presentDec_of_lt decoder y (alawDecode y)⟩
    obtain ⟨-, -, sameEncoders, -, -⟩ := alawDecFrame j y s t decoded
    obtain ⟨u, encoded⟩ : ∃ u, exec (.alawEnc k (alawDecode y)) t = .next u :=
      ⟨_, presentEnc_of_lt (sameEncoders ▸ encoder) _ (alawEncode (alawDecode y))⟩
    have triple : Obs.ofInstr (.alawEnc k (alawDecode y)) = .enc k (alawDecode y) y :=
      congrArg (Obs.enc k (alawDecode y)) (alawEncode_alawDecode y)
    exact ⟨alawDecode y, t, u, decoded, exec_trace decoded, encoded, triple ▸ exec_trace encoded⟩

/-- Settles O31: the decoder is one-to-one, so each of the values 1 and -1 has one code. -/
theorem valueAtZero : Obligations.ValueAtZero := by
  have plusOne : (alawDecode 0x55).toInt = 1 := by decide
  have minusOne : (alawDecode 0xD5).toInt = -1 := by decide
  refine ⟨by decide, by decide, by decide, minusOne, fun y => ?_⟩
  have notZero := alawDecode_toInt_ne_zero y
  rw [← alawDecode_injective.eq_iff (a := y), ← alawDecode_injective.eq_iff (a := y), ← BitVec.toInt_inj,
    ← BitVec.toInt_inj, plusOne, minusOne]
  omega

end Sys2Proof.Machine
end

section
/-! The round trip is idempotent and monotone (R79).  Each code's samples are an interval, and the round trip takes
every sample to a sample of the same code. -/

namespace Sys2Proof.Machine

open Sys2Proof

@[simp] theorem alawEncode_roundtrip (x : Sample) : alawEncode (roundtrip x) = alawEncode x :=
  alawEncode_alawDecode _

theorem alawEncode_eq_of_between {a b c : Sample} (ab : a.toInt ≤ b.toInt) (bc : b.toInt ≤ c.toInt)
    (same : alawEncode a = alawEncode c) : alawEncode b = alawEncode c := by
  have interval (x : Sample) := alawEncode_eq_wireOf_iff x (wireFields (alawEncode c))
  simp only [wireOf_wireFields, clampedMag] at interval
  obtain ⟨aSign, aMagnitude⟩ := (interval a).1 same
  obtain ⟨cSign, cMagnitude⟩ := (interval c).1 rfl
  have acSign : a.toInt < 0 ↔ c.toInt < 0 := aSign.trans cSign.symm
  have bcSign : b.toInt < 0 ↔ c.toInt < 0 := by omega
  exact (interval b).2 ⟨bcSign.trans cSign, by omega⟩

/-- Were the order reversed, one of the two samples would lie between the other and its round trip, and so have the
other's code. -/
theorem roundtrip_mono {a b : Sample} (ab : a.toInt ≤ b.toInt) : (roundtrip a).toInt ≤ (roundtrip b).toInt := by
  by_contra reversed
  have sameCode : alawEncode a = alawEncode b := by
    obtain bBetween | aBetween := le_total b.toInt (roundtrip a).toInt
    · rw [alawEncode_eq_of_between ab bBetween (alawEncode_roundtrip a).symm, alawEncode_roundtrip]
    · rw [← alawEncode_roundtrip a, alawEncode_eq_of_between (by omega) aBetween (alawEncode_roundtrip b)]
  have sameResult : roundtrip a = roundtrip b := congrArg alawDecode sameCode
  exact reversed (sameResult ▸ le_rfl)

theorem range_roundtrip : Set.range roundtrip = Set.range alawDecode := alawEncode_surjective.range_comp alawDecode

/-- Settles O33: the values are the decoder's, one for each code. -/
theorem roundTripIdempotentMonotone : Obligations.RoundTripIdempotentMonotone := by
  refine ⟨?idempotent, fun _ _ => roundtrip_mono, ?values⟩
  case idempotent => exact fun x => congrArg alawDecode (alawEncode_roundtrip x)
  case values =>
    calc (Set.range roundtrip).ncard = Nat.card Code := by
          rw [range_roundtrip, Set.ncard_range_of_injective alawDecode_injective]
      _ = 2 ^ 8 := (Nat.card_congr BitVec.equivFin.toEquiv).trans (Nat.card_fin _)

end Sys2Proof.Machine
end

section
/-! The quantisation error (R80). -/

namespace Sys2Proof.Machine

open Sys2Proof

/-- The decoded magnitude for the fields of a clamped magnitude. -/
def requantised (m : Nat) : Nat := magnitudeOf (segOf m) (mantOf m)

theorem roundtrip_toInt (x : Sample) :
    (roundtrip x).toInt =
      if x.toInt < 0 then -(requantised (clampedMag x.toInt) : Int) else requantised (clampedMag x.toInt) := by
  rw [roundtrip, alawDecode_toInt, decodedValue_eq, wireFields_alawEncode, sampleFields_seg_toNat,
    sampleFields_mant_toNat]
  simp only [sampleFields_s_eq_one_iff, requantised]

/-- R71, R80: the decoded magnitude is the upper of the two magnitudes in segment 0, and half a step above the lower
end of its interval in the others. -/
theorem requantised_error (m : Nat) :
    m < requantised m + 2 ^ (segOf m - 1) ∧ requantised m ≤ m + 2 ^ (segOf m - 1) := by
  obtain ⟨lo, hi⟩ := (fields_eq_iff_mem_interval (mantOf_lt m) m).1 ⟨rfl, rfl⟩
  rw [requantised]
  cases segment : segOf m with
  | zero =>
    rw [segment] at lo hi
    rw [intervalLo_zero] at lo
    rw [intervalHi_zero] at hi
    rw [magnitudeOf_zero]
    omega
  | succ k =>
    have : 0 < 2 ^ k := by positivity
    rw [segment] at lo hi
    rw [intervalHi_succ, pow_succ] at hi
    rw [magnitudeOf_succ_eq_intervalLo_add, Nat.add_sub_cancel]
    omega

theorem two_pow_segOf_sub_one_le {m : Nat} (hm : m ≤ 4095) : 2 ^ (segOf m - 1) ≤ 2 ^ 6 :=
  Nat.pow_le_pow_right (by decide) (Nat.sub_le_sub_right (Nat.le_of_lt_succ (segOf_lt hm)) 1)

/-- R80: only segment 7 has half a step of 64, and only the lower ends of its intervals are that far off. -/
theorem requantised_eq_add_iff {m : Nat} (hm : m ≤ 4095) :
    requantised m = m + 64 ↔ ∃ k ≤ 15, m = 2048 + 128 * k := by
  constructor
  · intro largest
    have segment : segOf m = 7 := by
      have := segOf_lt hm
      have := (requantised_error m).2
      by_contra notTop
      have : 2 ^ (segOf m - 1) ≤ 2 ^ 5 := Nat.pow_le_pow_right (by decide) (by omega)
      omega
    have := mantOf_lt m
    rw [requantised, segment, magnitudeOf_succ] at largest
    exact ⟨mantOf m, by omega, by omega⟩
  · rintro ⟨k, hk, rfl⟩
    have lowerEnd : intervalLo 7 k = 2048 + 128 * k := by rw [intervalLo_succ]; omega
    have upperEnd : intervalHi 7 k = intervalLo 7 k + 127 := rfl
    obtain ⟨segment, mantissa⟩ := (fields_eq_iff_mem_interval (by omega) _).2 ⟨lowerEnd.le, by omega⟩
    rw [requantised, segment, mantissa, magnitudeOf_succ]
    omega

/-- R62, R80: the position is the segment and 4, and the minimum bound 1 is that of segments 0 and 1. -/
theorem errorBound_alawPosition (x : Sample) :
    errorBound (alawPosition x) = (2 ^ (segOf (clampedMag x.toInt) - 1) : Nat) := by
  have magnitude := encClamp_encSignMag_toNat x
  have segment := segOf_eq_encPosition_sub (magnitude.trans_le (clampedMag_le _))
  rw [magnitude] at segment
  rw [errorBound, alawPosition, segment, Nat.sub_sub, Nat.cast_pow, Nat.cast_two]
  exact max_eq_right (one_le_pow₀ (by decide))

theorem clampedMag_of_mem {v : Int} (lo : -4095 ≤ v) (hi : v ≤ 4095) : clampedMag v = v.natAbs :=
  Nat.min_eq_left (by omega)

/-- Settles O34: within the clamp the error is the magnitude's, with the sample's sign. -/
theorem quantisationErrorBound : Obligations.QuantisationErrorBound := by
  refine ⟨?absolute, ?nonnegative, ?negative, by decide, by decide, by decide⟩
  case absolute =>
    intro x lo hi
    have magnitude := clampedMag_of_mem lo hi
    have error := requantised_error (clampedMag x.toInt)
    have halfStep := two_pow_segOf_sub_one_le (clampedMag_le x.toInt)
    rw [errorBound_alawPosition, roundtrip_toInt, ← magnitude, ← requantised_eq_add_iff (clampedMag_le x.toInt)]
    split <;> omega
  case nonnegative =>
    intro x nonnegative hi
    have magnitude := clampedMag_of_mem (by omega) hi
    have error := requantised_error (clampedMag x.toInt)
    rw [errorBound_alawPosition, roundtrip_toInt, if_neg nonnegative.not_gt]
    omega
  case negative =>
    intro x lo negative
    have magnitude := clampedMag_of_mem lo (by omega)
    have error := requantised_error (clampedMag x.toInt)
    rw [errorBound_alawPosition, roundtrip_toInt, if_pos negative]
    omega

end Sys2Proof.Machine
end

section
/-! The document's vectors (R83). -/

namespace Sys2Proof.Machine

open Sys2Proof

/-- Settles O36: fixed values, evaluated. -/
theorem documentVectors : Obligations.DocumentVectors := by
  unfold Obligations.DocumentVectors
  decide

end Sys2Proof.Machine
end

section
/-! Where an operation stops, and that a safe run does not (R84, R85, R92). -/

namespace Sys2Proof.Machine

open Sys2Proof

/-- R92: an operation on an instance that is absent stops by name. -/
theorem exec_of_not_has {s : State} {i : Instr} (absent : s.has i = false) : exec i s = .fault .noSuchInstance := by
  cases i with
  | alawEnc k x => exact if_neg (of_decide_eq_false absent)
  | alawDec k y => exact if_neg (of_decide_eq_false absent)

/-- Everything an operation can do. -/
theorem exec_cases (i : Instr) (s : State) :
    (s.has i = true ∧ exec i s = .next ((s.driveBy i).record (Obs.ofInstr i))) ∨
    (s.has i = false ∧ exec i s = .fault .noSuchInstance) := by
  cases instanceExists : s.has i with
  | true => exact .inl ⟨rfl, exec_of_has instanceExists⟩
  | false => exact .inr ⟨rfl, exec_of_not_has instanceExists⟩

theorem exec_fault_iff (i : Instr) (s : State) (f : Fault) :
    exec i s = .fault f ↔ f = .noSuchInstance ∧ s.has i = false := by
  obtain ⟨present, answers⟩ | ⟨absent, faults⟩ := exec_cases i s
  · simp [answers, present]
  · simp [faults, absent]

/-- R85: every operand has its result, and an absent instance is a fault. -/
theorem exec_ne_refused (i : Instr) (s : State) (r : Refusal) : exec i s ≠ .refused r := by
  obtain ⟨-, answers⟩ | ⟨-, faults⟩ := exec_cases i s
  · simp [answers]
  · simp [faults]

theorem has_alawEnc_eq_false {s : State} {k : Nat} (absent : s.encIn[k]? = none) (x : Sample) :
    s.has (.alawEnc k x) = false :=
  decide_eq_false (List.getElem?_eq_none_iff.1 absent).not_gt

theorem has_alawDec_eq_false {s : State} {k : Nat} (absent : s.decIn[k]? = none) (y : Code) :
    s.has (.alawDec k y) = false :=
  decide_eq_false (List.getElem?_eq_none_iff.1 absent).not_gt

/-- Settles O14: the test of the instance is the only branch of an operation. -/
theorem stopsOnlyOnTheHostsMistake : Obligations.StopsOnlyOnTheHostsMistake :=
  ⟨fun _ x _ absent => exec_of_not_has (has_alawEnc_eq_false absent x),
    fun _ y _ absent => exec_of_not_has (has_alawDec_eq_false absent y), exec_fault_iff, exec_ne_refused⟩

/-- Settles O13: an operation that answers has its instance, which is all that any other operand needs there. -/
theorem noOperandStopsAnOperation : Obligations.NoOperandStopsAnOperation := by
  refine ⟨?present, ?encoder, ?decoder⟩
  case present => exact fun i s present => ⟨_, exec_of_has present⟩
  case encoder =>
    intro k x x' s t answers
    have present : s.has (.alawEnc k x') = true := (exec_next answers).1
    exact ⟨_, exec_of_has present⟩
  case decoder =>
    intro k y y' s t answers
    have present : s.has (.alawDec k y') = true := (exec_next answers).1
    exact ⟨_, exec_of_has present⟩

/-- Settles O40: a step with nothing to present keeps the state, and the rules of a safe run cover any other. -/
theorem safeStepNeverStops : Obligations.SafeStepNeverStops := by
  intro s safe
  cases words : s.pending with
  | nil => exact ⟨s, step_nil words, safe⟩
  | cons p ps =>
    obtain ⟨t, steps, tSafe, -⟩ := step_of_safe safe words
    exact ⟨t, steps, tSafe⟩

end Sys2Proof.Machine
end

section
/-! Ports at reset, and what a walk along the wires can and cannot read (R95, R99, U5). -/

namespace Sys2Proof.Machine

open Sys2Proof

/-- R95: the output of an encoder whose input the host drives is the code of the sample it holds. -/
theorem alawO_host {s : State} {k : Nat} {x : Sample} (h : s.encIn[k]? = some (.host x)) :
    s.alawO k = .value (alawEncode x) := by
  rw [State.alawO, pcmI_host h, map_value]

theorem pcmO_host {s : State} {k : Nat} {y : Code} (h : s.decIn[k]? = some (.host y)) :
    s.pcmO k = .value (alawDecode y) := by
  rw [State.pcmO, alawI_host h, map_value]

/-- Settles O5: after reset the host holds 0 on every input, and the two functions are evaluated there. -/
theorem outputsAtReset : Obligations.OutputsAtReset := by
  intro nEnc nDec k
  obtain ⟨-, -, -, -, encHeld, decHeld⟩ := resetHoldsNothing.2 nEnc nDec
  have codeOfZero : alawEncode 0 = 0x55 := valueAtZero.1
  have decodeOfZero : alawDecode 0 = 688 := by decide
  exact ⟨fun present => codeOfZero ▸ alawO_host (encHeld k present),
    fun present => decodeOfZero ▸ pcmO_host (decHeld k present)⟩

/-- U1: an input of an instance that does not exist is undriven. -/
theorem pcmI_absent {s : State} {k : Nat} (h : s.encIn[k]? = none) : s.pcmI k = .undriven :=
  pcmIWithin_absent h _

theorem alawI_absent {s : State} {k : Nat} (h : s.decIn[k]? = none) : s.alawI k = .undriven :=
  alawIWithin_absent h _

/-- A wired input carries the output at the wire's other end, the unit's function of the input there. -/
theorem pcmI_wire {s : State} {k j : Nat} (h : s.encIn[k]? = some (.wire j)) :
    s.pcmI k = (s.alawI j).map alawDecode :=
  (wireCarriesTheOutput s k j).2 h

theorem alawI_wire {s : State} {k j : Nat} (h : s.decIn[k]? = some (.wire j)) :
    s.alawI k = (s.pcmI j).map alawEncode :=
  (wireCarriesTheOutput s k j).1 h

theorem ne_loop_of_map_ne_loop {α β : Type} {f : α → β} {v : PortValue α} (h : v.map f ≠ .loop) : v ≠ .loop :=
  fun loops => h (loops ▸ map_loop f)

/-- Settles O51, by induction on the links of the walk: a port and a walk that goes on from it follow the same wire. -/
theorem walkBoundSuffices : Obligations.WalkBoundSuffices := by
  intro s n
  induction n with
  | zero => exact fun _ => ⟨fun ends => absurd rfl ends, fun ends => absurd rfl ends⟩
  | succ n ih =>
    intro k
    constructor <;> intro ends
    · obtain absent | ⟨x, host⟩ | ⟨j, wire⟩ := driver_cases s.encIn k
      · rw [pcmI_absent absent, pcmIWithin_absent absent]
      · rw [pcmI_host host, pcmIWithin_host host]
      · rw [pcmIWithin_wire wire] at ends ⊢
        rw [pcmI_wire wire, (ih j).2 (ne_loop_of_map_ne_loop ends)]
    · obtain absent | ⟨y, host⟩ | ⟨j, wire⟩ := driver_cases s.decIn k
      · rw [alawI_absent absent, alawIWithin_absent absent]
      · rw [alawI_host host, alawIWithin_host host]
      · rw [alawIWithin_wire wire] at ends ⊢
        rw [alawI_wire wire, (ih j).1 (ne_loop_of_map_ne_loop ends)]

/-- R99: in a ring of two instances a walk never ends, however many links it is followed. -/
theorem within_ring {s : State} {k j : Nat} (enc : s.encIn[k]? = some (.wire j)) (dec : s.decIn[j]? = some (.wire k))
    (n : Nat) : pcmIWithin n s k = .loop ∧ alawIWithin n s j = .loop := by
  induction n with
  | zero => exact ⟨rfl, rfl⟩
  | succ n ih =>
    obtain ⟨pcm, alaw⟩ := ih
    exact ⟨by rw [pcmIWithin_wire enc, alaw, map_loop], by rw [alawIWithin_wire dec, pcm, map_loop]⟩

/-- Settles O52: both inputs read as a loop, and so does an output, the unit's function of its input. -/
theorem closedWiresSelectNoValue : Obligations.ClosedWiresSelectNoValue := by
  intro s k j enc dec
  obtain ⟨pcm, alaw⟩ : s.pcmI k = .loop ∧ s.alawI j = .loop := within_ring enc dec s.walkBound
  exact ⟨pcm, by rw [State.alawO, pcm, map_loop], alaw, by rw [State.pcmO, alaw, map_loop]⟩

end Sys2Proof.Machine
end

section
/-! The instances and the wires of a system during a run (R25, R92). -/

namespace Sys2Proof.Machine

open Sys2Proof

/-- Taking a word off the list leaves every driver as it is. -/
theorem sameNetwork_setPending (s : State) (ps : List Presented) : s.sameNetwork (s.setPending ps) = true :=
  sameNetwork_refl s

/-- Settles O39: an idle step changes nothing, and an operation changes no wire and no count. -/
theorem stepKeepsNetwork : Obligations.StepKeepsNetwork := by
  intro s t steps
  obtain ⟨-, idles⟩ | ⟨p, ps, -, runs⟩ := step_cases s
  · obtain rfl : s = t := Host.Outcome.next.inj (idles.symm.trans steps)
    exact sameNetwork_refl s
  · have answers : exec (decode p) (s.setPending ps) = .next t := runs.symm.trans steps
    exact sameNetwork_trans (sameNetwork_setPending s ps) (exec_sameNetwork answers)

end Sys2Proof.Machine
end
